-- ==== Sys2Proof/Word.lean ====
section
/-! DEFINITION. The words of the block: the byte of both streams and the 64-bit value of the one canonical
implementation (00_scope.md R4: BYTE_BITS = 8, BASE_BITS = 64; all values unsigned, bit 0 least significant, R8). -/

namespace Sys2Proof

/-- One byte of `In` or `Out` (R4, R30, R45): bit 7 is the continuation bit `C`, bits 6:0 the 7-bit group `G`. -/
abbrev Byte := BitVec 8

/-- A 64-bit value: the operand port `val`, the registers `enc_rem` and `dec_acc`, the result port `dec_value` (R4, R43). -/
abbrev Val := BitVec 64

end Sys2Proof
end

