-- ==== Sys2Proof/Syntax.lean ====
section
/-! DEFINITION. The operations of the block (30_encoding.md R46): 15, three kinds at five widths, one constructor per row of
spec/opcode_table.json. An operation carries what HOST presents beside the command word (R54, R59): the 64-bit operand `val`
for `SIZE.w` and `ENC.w`, the byte sequence `In` for `DEC.w`. -/

namespace Sys2Proof

/-- The three kinds of operation (R55). -/
inductive Kind where
  | size
  | enc
  | dec
  deriving DecidableEq, Repr

/-- The five widths (R56). -/
inductive Width where
  | w8
  | w16
  | w32
  | w64
  | wp
  deriving DecidableEq, Repr

/-- What HOST presents at the command port in one step (R21, R54): the 5-bit command word `cmd`, the 64-bit operand lines
`val` (used by `SIZE.w` and `ENC.w` only) and the sequence `In` that HOST fixes with a `DEC.w` (used by `DEC.w` only, R31). -/
structure Command where
  cmd   : BitVec 5
  val   : Val
  input : List Byte
  deriving DecidableEq, Repr

/-- The 15 operations (R46), one constructor per row of spec/opcode_table.json. -/
inductive Instr where
  /-- `SIZE.W8` (R68) -/
  | sizeW8 (val : Val)
  /-- `SIZE.W16` (R69) -/
  | sizeW16 (val : Val)
  /-- `SIZE.W32` (R70) -/
  | sizeW32 (val : Val)
  /-- `SIZE.W64` (R71) -/
  | sizeW64 (val : Val)
  /-- `SIZE.WP` (R72) -/
  | sizeWP (val : Val)
  /-- `ENC.W8` (R83) -/
  | encW8 (val : Val)
  /-- `ENC.W16` (R84) -/
  | encW16 (val : Val)
  /-- `ENC.W32` (R85) -/
  | encW32 (val : Val)
  /-- `ENC.W64` (R86) -/
  | encW64 (val : Val)
  /-- `ENC.WP` (R87) -/
  | encWP (val : Val)
  /-- `DEC.W8` (R107) -/
  | decW8 (input : List Byte)
  /-- `DEC.W16` (R108) -/
  | decW16 (input : List Byte)
  /-- `DEC.W32` (R109) -/
  | decW32 (input : List Byte)
  /-- `DEC.W64` (R110) -/
  | decW64 (input : List Byte)
  /-- `DEC.WP` (R111) -/
  | decWP (input : List Byte)
  deriving DecidableEq, Repr

/-- The kind of an operation (R46). -/
def Instr.kind : Instr → Kind
  | .sizeW8 _ | .sizeW16 _ | .sizeW32 _ | .sizeW64 _ | .sizeWP _ => .size
  | .encW8 _ | .encW16 _ | .encW32 _ | .encW64 _ | .encWP _ => .enc
  | .decW8 _ | .decW16 _ | .decW32 _ | .decW64 _ | .decWP _ => .dec

/-- The width of an operation (R46). -/
def Instr.width : Instr → Width
  | .sizeW8 _ | .encW8 _ | .decW8 _ => .w8
  | .sizeW16 _ | .encW16 _ | .decW16 _ => .w16
  | .sizeW32 _ | .encW32 _ | .decW32 _ => .w32
  | .sizeW64 _ | .encW64 _ | .decW64 _ => .w64
  | .sizeWP _ | .encWP _ | .decWP _ => .wp

/-- The operand on the 64-bit port; a `DEC.w` takes none (R54). -/
def Instr.val? : Instr → Option Val
  | .sizeW8 v | .sizeW16 v | .sizeW32 v | .sizeW64 v | .sizeWP v => some v
  | .encW8 v | .encW16 v | .encW32 v | .encW64 v | .encWP v => some v
  | .decW8 _ | .decW16 _ | .decW32 _ | .decW64 _ | .decWP _ => none

/-- The input sequence; only a `DEC.w` takes one (R54). -/
def Instr.input? : Instr → Option (List Byte)
  | .sizeW8 _ | .sizeW16 _ | .sizeW32 _ | .sizeW64 _ | .sizeWP _ => none
  | .encW8 _ | .encW16 _ | .encW32 _ | .encW64 _ | .encWP _ => none
  | .decW8 s | .decW16 s | .decW32 s | .decW64 s | .decWP s => some s

end Sys2Proof
end

