-- ==== Sys2Proof/WellFormed.lean ====
section
/-! DEFINITION. Which commands are well formed. A term of `Instr` has no ill-formed value: no operand and no input sequence is
out of range (30_encoding.md R53, R61; 41_encode.md R93). What can be ill formed is the command word HOST presents (R57). The
decoder does not use these checks: that it accepts exactly the well-formed commands is a statement. -/

namespace Sys2Proof

/-- The `op` field, `cmd[4:3]` as a number, is not the reserved `0b11` (R55, R57). -/
def Command.opDefined (c : Command) : Bool := c.cmd.toNat / 8 != 3

/-- The `wsel` field, `cmd[2:0]` as a number, is not one of the reserved 5, 6, 7 (R56, R57). -/
def Command.wselDefined (c : Command) : Bool := decide (c.cmd.toNat % 8 < 5)

/-- A command that selects one of the 15 operations (R57, R62). -/
def Command.wellFormed (c : Command) : Bool := c.opDefined && c.wselDefined

/-- The lines the kind of operation does not use are quiet: `val` zero for a `DEC.w` (`op = 2`), no input sequence otherwise
(R54). The block ignores them; only the encoder of commands keeps this form. -/
def Command.quiet (c : Command) : Bool :=
  bif c.cmd.toNat / 8 == 2 then c.val == 0 else c.input.isEmpty

end Sys2Proof
end

