-- ==== Sys2Proof/Decode.lean ====
section
/-! DEFINITION. The command word: its fields, the decoder (total, rejecting by name) and the encoder, all from
30_encoding.md R54 to R57 and R62. -/

namespace Sys2Proof

/-- Why a command word selects no operation (R57). -/
inductive DecodeError where
  /-- `op = 0b11` (R55, R57) -/
  | reservedOp
  /-- `wsel` of 5, 6 or 7 (R56, R57) -/
  | reservedWidth
  deriving DecidableEq, Repr

/-- The `op` field, `cmd[4:3]` (R54). -/
def opField (cmd : BitVec 5) : BitVec 2 := cmd.extractLsb' 3 2

/-- The `wsel` field, `cmd[2:0]` (R54). -/
def wselField (cmd : BitVec 5) : BitVec 3 := cmd.extractLsb' 0 3

/-- The kind an `op` value selects (R55); `0b11` is reserved. -/
def kindOf (op : BitVec 2) : Option Kind :=
  match op.toNat with
  | 0b00 => some .size
  | 0b01 => some .enc
  | 0b10 => some .dec
  | _ => none

/-- The width a `wsel` value selects (R56); 5, 6 and 7 are reserved. -/
def widthOfCode (wsel : BitVec 3) : Option Width :=
  match wsel.toNat with
  | 0b000 => some .w8
  | 0b001 => some .w16
  | 0b010 => some .w32
  | 0b011 => some .w64
  | 0b100 => some .wp
  | _ => none

/-- The operation of a kind at a width, with the operand lines the kind uses (R46, R54, R61). -/
def instrOf (k : Kind) (w : Width) (val : Val) (input : List Byte) : Instr :=
  match k, w with
  | .size, .w8 => .sizeW8 val
  | .size, .w16 => .sizeW16 val
  | .size, .w32 => .sizeW32 val
  | .size, .w64 => .sizeW64 val
  | .size, .wp => .sizeWP val
  | .enc, .w8 => .encW8 val
  | .enc, .w16 => .encW16 val
  | .enc, .w32 => .encW32 val
  | .enc, .w64 => .encW64 val
  | .enc, .wp => .encWP val
  | .dec, .w8 => .decW8 input
  | .dec, .w16 => .decW16 input
  | .dec, .w32 => .decW32 input
  | .dec, .w64 => .decW64 input
  | .dec, .wp => .decWP input

/-- The kind and the width a command word selects (R54 to R57); a reserved word is rejected by name. -/
def selects (cmd : BitVec 5) : Except DecodeError (Kind × Width) :=
  match kindOf (opField cmd) with
  | none => .error .reservedOp
  | some k =>
    match widthOfCode (wselField cmd) with
    | none => .error .reservedWidth
    | some w => .ok (k, w)

/-- The decoder of commands (R54 to R57): total on every command. -/
def decode : Command → Except DecodeError Instr
  | ⟨cmd, val, input⟩ =>
    match selects cmd with
    | .error e => .error e
    | .ok (k, w) => .ok (instrOf k w val input)

/-- The `op` value of a kind (R55). -/
def Kind.code : Kind → BitVec 2
  | .size => 0b00#2
  | .enc => 0b01#2
  | .dec => 0b10#2

/-- The `wsel` value of a width (R56); also what the 3-bit register `dec_w` holds (10_state.md R16). -/
def Width.code : Width → BitVec 3
  | .w8 => 0b000#3
  | .w16 => 0b001#3
  | .w32 => 0b010#3
  | .w64 => 0b011#3
  | .wp => 0b100#3

/-- The command word of a kind at a width: the complete command map of R62. -/
def wordOf (k : Kind) (w : Width) : BitVec 5 :=
  match k, w with
  | .size, .w8 => 0b00000#5
  | .size, .w16 => 0b00001#5
  | .size, .w32 => 0b00010#5
  | .size, .w64 => 0b00011#5
  | .size, .wp => 0b00100#5
  | .enc, .w8 => 0b01000#5
  | .enc, .w16 => 0b01001#5
  | .enc, .w32 => 0b01010#5
  | .enc, .w64 => 0b01011#5
  | .enc, .wp => 0b01100#5
  | .dec, .w8 => 0b10000#5
  | .dec, .w16 => 0b10001#5
  | .dec, .w32 => 0b10010#5
  | .dec, .w64 => 0b10011#5
  | .dec, .wp => 0b10100#5

/-- The command word of an operation (R62). -/
def Instr.word (i : Instr) : BitVec 5 := wordOf i.kind i.width

/-- The encoder: the command HOST presents for an operation (R54, R59), unused lines quiet. -/
def encode (i : Instr) : Command :=
  { cmd := i.word, val := i.val?.getD 0, input := i.input?.getD [] }

/-- The command word among the low `nbits` bits of a number laid out as spec/opcode_table.json numbers them (bit 0 the least
significant). The port has five lines, so a number with a bit above bit 4 is no command word (log entry 14). -/
def tableCommand (nbits w : Nat) : Option Command :=
  let bits := w % 2 ^ nbits
  if bits < 32 then some { cmd := BitVec.ofNat 5 bits, val := 0, input := [] } else none

/-- What the decoder reads from a table word, the operand lines zero and the input sequence empty. -/
def decodeTableWord (nbits w : Nat) : Option Instr :=
  match tableCommand nbits w with
  | none => none
  | some c =>
    match decode c with
    | .ok i => some i
    | .error _ => none

end Sys2Proof
end

