-- ==== Sys2Proof/Config.lean ====
section
/-! DEFINITION. What an implementation fixes: the fixed parameters of 00_scope.md R4 and the open parameter PBITS of R5. -/

namespace Sys2Proof

/-- `GROUP_BITS` (R4): value bits carried per encoded byte. -/
abbrev Config.groupBits : Nat := 7

/-- `CAP_GROUPS` (R4): the decoder's hard safety cap, 10 groups. -/
abbrev Config.capGroups : Nat := 10

/-- `MAX_ENC_BYTES` (R4): the longest encoder output. -/
abbrev Config.maxEncBytes : Nat := 10

/-- The open parameter PBITS less one (R5, decision D4, U1). No body: the spec never sizes the platform type, so nothing
can be proved of it but its range. A statement that holds of the model holds for every PBITS from 1 to 64
(log entry 2; DESIGN CHOICE of the form, safe). -/
opaque Config.pbitsLessOne : Fin 64

/-- `PBITS` (R5), between 1 and 64. -/
def Config.pbits : Nat := Config.pbitsLessOne.val + 1

end Sys2Proof
end

