-- ==== Sys2Proof/Machine/State.lean ====
section
/-! DEFINITION. The state of one instance of the block (10_state.md), what HOST offers it, and why a step can stop. -/

namespace Sys2Proof.Machine

/-- `enc_state` (R13), 1 bit: 0 = IDLE, 1 = RUN. -/
inductive EncPhase where
  | idle
  | run
  deriving DecidableEq, Repr

/-- `dec_state` (R14), 2 bits: 0 = IDLE, 1 = RUN, 2 = DONE; code 3 is never reached and not represented (U11). -/
inductive DecPhase where
  | idle
  | run
  | done
  deriving DecidableEq, Repr

/-- One thing HOST does, or lets a unit do (R7, R142, R164). -/
inductive Move where
  /-- HOST presents a command word with its operand (R21): a `SIZE.w` evaluation, `ENC_START` or `DEC_START`. -/
  | command (c : Command)
  /-- HOST accepts the output byte: ENC takes `ENC_EMIT` (R89, R160). -/
  | encEmit
  /-- HOST offers the next byte of `In`: DEC takes `DEC_BYTE` (R31, R113). -/
  | decByte
  /-- HOST offers the end-of-input mark: DEC takes `DEC_END` (R31, R114). -/
  | decEnd
  /-- HOST reads the decode result: `DEC_RESULT` (R115). -/
  | readResult
  /-- HOST reads the status levels `enc_busy`, `dec_busy`, `dec_done` (R18, R142). -/
  | readStatus
  deriving DecidableEq, Repr

/-- What is offered at one moment: the reset input (R150) and at most one move beside it. -/
structure Moment where
  reset : Bool
  move  : Option Move
  deriving DecidableEq, Repr

/-- The three status levels (R13, R14, R18). -/
structure Status where
  encBusy : Bool
  decBusy : Bool
  decDone : Bool
  deriving DecidableEq, Repr

/-- What HOST last took from each output port. The model's own bookkeeping, like `In` and `Out` of R20: no register of the
block, read by no rule (log entry 5). -/
structure Seen where
  /-- `size_out` (R22, R66) of the last `SIZE.w` evaluation. -/
  size    : Option (BitVec 4)
  /-- `out_byte` with `out_last` (R33, R90) of the last `ENC_EMIT`. -/
  emitted : Option (Byte × Bool)
  /-- `(dec_value, dec_count)` (R19) of the last `DEC_RESULT`. -/
  result  : Option (Val × BitVec 4)
  /-- The levels of the last status read. -/
  status  : Option Status
  deriving DecidableEq, Repr

/-- HOST has taken nothing yet. -/
def Seen.none : Seen := { size := .none, emitted := .none, result := .none, status := .none }

/-- The complete state: the six registers of R10, the sequences `In` and `Out` of R20, and the model's own `seen` and `agenda`. -/
structure State where
  /-- `enc_state` (R13). -/
  encState : EncPhase
  /-- `enc_rem` (R11). -/
  encRem   : Val
  /-- `dec_state` (R14). -/
  decState : DecPhase
  /-- `dec_acc` (R12). -/
  decAcc   : Val
  /-- `dec_cnt` (R15), 4 bits with range 0 to `CAP_GROUPS`; 11 to 15 are never reached and not represented (U11). -/
  decCnt   : Fin (Config.capGroups + 1)
  /-- `dec_w` (R16), 3 bits: the code is `Width.code`. -/
  decW     : Width
  /-- `In` (R20, R31). -/
  inp      : List Byte
  /-- `Out` (R20, R33). -/
  out      : List Byte
  /-- What HOST last took from each port (log entry 5). -/
  seen     : Seen
  /-- What HOST offers next, in order, and with it which agent moves (R162; log entry 1). -/
  agenda   : List Moment
  deriving DecidableEq, Repr

/-- Right after `RESET` (R24, R150): both units IDLE, every other register 0, `In` and `Out` empty. HOST has taken nothing and
offers nothing (log entries 1 and 5). -/
def State.reset : State :=
  { encState := .idle
    encRem := 0
    decState := .idle
    decAcc := 0
    decCnt := 0
    decW := .w8
    inp := []
    out := []
    seen := Seen.none
    agenda := [] }

/-- Why the machine is stuck. The hardware raises no exception (60_exceptions.md R135), so no accepted operation faults. -/
inductive Fault where
  /-- Raised by `DEC_BYTE` in RUN with `dec_cnt = 10`, where the step would take `dec_cnt` to 11: the stuck state of U11.
  No reachable state has it (R23 item 4). Safe: the machine stops. -/
  | countPastCap
  deriving DecidableEq, Repr

/-- Why a move is not accepted: the step does not exist in that state (R9, R21), nothing changes, nothing is remembered.
Every one is safe: a claim about such a move is unprovable, none is false (decisions D14, D15). -/
inductive Refusal where
  /-- An instruction without a meaning, named as spec/opcode_table.json names it; raised by `exec` only. Safe. -/
  | notModelled (mnemonic : String)
  /-- A command word with `op = 0b11`; raised by the decoder (R57). Safe. -/
  | reservedOp
  /-- A command word with `wsel` of 5, 6 or 7; raised by the decoder (R57). Safe. -/
  | reservedWidth
  /-- `ENC_START` while ENC is in RUN (R154). Safe. -/
  | encBusy
  /-- `DEC_START` while DEC is in RUN (R154). Safe. -/
  | decBusy
  /-- `ENC_EMIT` while ENC is in IDLE (R89). Safe. -/
  | encNotRunning
  /-- `DEC_BYTE` or `DEC_END` while DEC is not in RUN (R116, R156). Safe. -/
  | decNotRunning
  /-- `DEC_BYTE` with no byte of `In` left (R113). Safe. -/
  | noByteLeft
  /-- `DEC_END` while `dec_cnt` is not `len(In)` (R114). Safe. -/
  | notAtEnd
  /-- `DEC_RESULT` outside DONE (R115, R155). Safe. -/
  | resultNotReady
  deriving DecidableEq, Repr

/-- How a step or a meaning ends. -/
abbrev Result := Host.Outcome State Fault Refusal

end Sys2Proof.Machine
end

