-- ==== Sys2Proof/Machine/Operands.lean ====
section
/-! DEFINITION. The operand forms: the width adapters of 43_width_adapters.md, and the fields of an encoded byte. -/

namespace Sys2Proof.Machine

/-- `width_of` (R128), with PBITS as an argument (R5). -/
def widthBits (pbits : Nat) : Width → Nat
  | .w8 => 8
  | .w16 => 16
  | .w32 => 32
  | .w64 => 64
  | .wp => pbits

/-- Widening (R126): `zext_64(val[W-1:0])`; the lines above the width are ignored (R61, D23). -/
def widen (bits : Nat) (val : Val) : Val := (val.setWidth bits).setWidth 64

/-- Narrowing at the result port (R19, R127): `zext_64(trunc_W(acc))`. -/
def narrow (bits : Nat) (acc : Val) : Val := (acc.setWidth bits).setWidth 64

/-- The 7-bit group `G` of a byte (R45), the continuation bit masked off. -/
def groupOf (b : Byte) : BitVec 7 := b.extractLsb' 0 7

/-- The continuation bit `C` of a byte (R45): set when more bytes follow. -/
def continues (b : Byte) : Bool := b.getLsbD 7

/-- A byte from its continuation bit and its group (R45). -/
def byteOf (c : Bool) (g : BitVec 7) : Byte := BitVec.ofBool c ++ g

end Sys2Proof.Machine
end

