-- ==== Sys2Proof/Machine/Codec.lean ====
section
/-! DEFINITION. Level O (00_scope.md R6): the three operations as pure total functions, and the one-iteration pieces of their
loops that Level S takes as steps. -/

namespace Sys2Proof.Machine

/-! ## SIZE -/

/-- The loop of R65: shifts right by 7 until the value is zero, counting. The fuel bounds it; 10 suffices for 64 bits. -/
def countShifts : Nat → Val → Nat
  | 0, _ => 0
  | fuel + 1, r => if r = 0 then 0 else countShifts fuel (r >>> Config.groupBits) + 1

/-- `SIZE64` (R65): zero is special-cased to 1. -/
def size64 (v : Val) : Nat := if v = 0 then 1 else countShifts Config.maxEncBytes v

/-! ## ENC -/

/-- The test `r[63:7] != 0` (R81, R89, R91): the remaining value does not fit in 7 bits. -/
def moreFollows (r : Val) : Bool := r.extractLsb' 7 57 != 0

/-- The low group `r[6:0]` of the remaining value (R81, R89). -/
def lowGroup (r : Val) : BitVec 7 := r.extractLsb' 0 7

/-- The byte one iteration emits (R81, R89): the low group, the continuation bit set when more follows. -/
def emitByte (r : Val) : Byte := byteOf (moreFollows r) (lowGroup r)

/-- The loop of R81 that appends to the output; the fuel bounds the iterations, 9 before the final byte suffice. -/
def encodeLoop : Nat → Val → List Byte
  | 0, r => [emitByte r]
  | fuel + 1, r =>
    if moreFollows r then emitByte r :: encodeLoop fuel (r >>> Config.groupBits) else [emitByte r]

/-- Group `i` of a value (R47, R80): `trunc_7(v >> (7*i))`. -/
def groupAt (v : Val) (i : Nat) : BitVec 7 := (v >>> (Config.groupBits * i)).setWidth 7

/-- `ENC64` in the closed form of R80: `SIZE64(v)` bytes, group `i` in byte `i`, the continuation bit on all but the last. -/
def enc64 (v : Val) : List Byte :=
  (List.range (size64 v)).map fun i => byteOf (decide (i + 1 < size64 v)) (groupAt v i)

/-! ## DEC -/

/-- Where a byte's group lands (R48, R100): `trunc_64(zext_70(b[6:0]) << (7*n))`. -/
def placeGroup (n : Nat) (b : Byte) : Val := (((groupOf b).setWidth 70) <<< (Config.groupBits * n)).setWidth 64

/-- One group merged into the accumulator (R100, R113, R121): bitwise OR. -/
def mergeGroup (acc : Val) (n : Nat) (b : Byte) : Val := acc ||| placeGroup n b

/-- The stop test after consuming byte `b` as byte number `n` from 0 (R101, R113): terminator or cap. -/
def stopsAfter (n : Nat) (b : Byte) : Bool := !continues b || n + 1 == Config.capGroups

/-- The loop of R100 from accumulator `acc` and count `n` on the bytes that are left. -/
def decodeLoop : Val → Nat → List Byte → Val × Nat
  | acc, n, [] => (acc, n)
  | acc, n, b :: rest =>
    if stopsAfter n b then (mergeGroup acc n b, n + 1) else decodeLoop (mergeGroup acc n b) (n + 1) rest

/-- `DEC64` (R100): the value and the count of bytes consumed. -/
def dec64 (input : List Byte) : Val × Nat := decodeLoop 0 0 input

/-! ## The operations at a width (R125) -/

/-- `SIZE.w` at Level O (R68 to R72), with PBITS as an argument. -/
def opSize (pbits : Nat) (w : Width) (val : Val) : Nat := size64 (widen (widthBits pbits w) val)

/-- `ENC.w` at Level O (R83 to R87). -/
def opEnc (pbits : Nat) (w : Width) (val : Val) : List Byte := enc64 (widen (widthBits pbits w) val)

/-- `DEC.w` at Level O (R107 to R111): the value narrowed and zero-extended to the result port, the count as it is. -/
def opDec (pbits : Nat) (w : Width) (input : List Byte) : Val × Nat :=
  (narrow (widthBits pbits w) (dec64 input).1, (dec64 input).2)

end Sys2Proof.Machine
end

