-- ==== Sys2Proof/Machine/Flags.lean ====
section
/-! DEFINITION. The output and status ports, each a function of the registers (10_state.md R18, R19; 20_memory.md R31, R33).
The block has no flag register and no condition codes (R18). -/

namespace Sys2Proof.Machine

/-- `enc_busy` (R13). -/
def State.encBusy (s : State) : Bool := s.encState == .run

/-- `dec_busy` (R14). -/
def State.decBusy (s : State) : Bool := s.decState == .run

/-- `dec_done` (R14). -/
def State.decDone (s : State) : Bool := s.decState == .done

/-- The three status levels together (R18). -/
def State.statusLevels (s : State) : Status :=
  { encBusy := s.encBusy, decBusy := s.decBusy, decDone := s.decDone }

/-- `size_out` (R22, R66, R67): a function of the operand and the width alone, on 4 bits. -/
def sizeOut (w : Width) (val : Val) : BitVec 4 := BitVec.ofNat 4 (opSize Config.pbits w val)

/-- `out_valid` (R33, R160): a byte is on offer exactly in RUN. -/
def State.outValid (s : State) : Bool := s.encBusy

/-- `out_byte` (R33, R89): the byte on offer in RUN. -/
def State.outByte (s : State) : Byte := emitByte s.encRem

/-- `out_last` (R90): the complement of the byte's continuation bit. -/
def outLast (b : Byte) : Bool := !continues b

/-- `in_ready` (R116). -/
def State.inReady (s : State) : Bool := s.decBusy

/-- `in_byte` (R31): the byte HOST offers, while there is one. -/
def State.inByte? (s : State) : Option Byte := s.inp[s.decCnt.val]?

/-- `in_valid` (R31): in RUN with a byte of `In` left. -/
def State.inValid (s : State) : Bool := s.decBusy && decide (s.decCnt.val < s.inp.length)

/-- `in_end` (R31): in RUN with every byte of `In` consumed. -/
def State.inEnd (s : State) : Bool := s.decBusy && decide (s.decCnt.val = s.inp.length)

/-- `dec_value` (R19): meaningful in DONE only (R155). -/
def State.decValue (s : State) : Val := narrow (widthBits Config.pbits s.decW) s.decAcc

/-- `dec_count` (R19), 4 bits: meaningful in DONE only (R155). -/
def State.decCount (s : State) : BitVec 4 := BitVec.ofNat 4 s.decCnt.val

end Sys2Proof.Machine
end

