-- ==== Sys2Proof/Machine/Ops.lean ====
section
/-! DEFINITION. The named operations over the state, and the steps of Level S (41_encode.md section 3, 42_decode.md section 3,
70_reset_and_hazards.md section 1). All writes of a step happen together (R9). The block takes no exception (60_exceptions.md
R135, R139), so there is no exception entry and no return. -/

namespace Sys2Proof.Machine

/-! ## Updates -/

/-- HOST's further moments. -/
def State.withAgenda (s : State) (ms : List Moment) : State := { s with agenda := ms }

/-- HOST takes `size_out`. -/
def State.sawSize (s : State) (n : BitVec 4) : State := { s with seen := { s.seen with size := some n } }

/-- HOST takes the decode result. -/
def State.sawResult (s : State) (v : Val) (n : BitVec 4) : State :=
  { s with seen := { s.seen with result := some (v, n) } }

/-- HOST takes the status levels. -/
def State.sawStatus (s : State) (l : Status) : State := { s with seen := { s.seen with status := some l } }

/-- The writes of `ENC_START` (R88). -/
def State.loadEncoder (s : State) (v : Val) : State := { s with encState := .run, encRem := v, out := [] }

/-- The writes of `ENC_EMIT` (R89): the byte appended to `Out` and taken by HOST with its `out_last`. -/
def State.emit (s : State) (phase : EncPhase) (r : Val) (b : Byte) : State :=
  { s with
    encState := phase
    encRem := r
    out := s.out ++ [b]
    seen := { s.seen with emitted := some (b, outLast b) } }

/-- The writes of `DEC_START` (R112). -/
def State.loadDecoder (s : State) (w : Width) (input : List Byte) : State :=
  { s with decState := .run, decAcc := 0, decCnt := 0, decW := w, inp := input }

/-- The writes of `DEC_BYTE` (R113). -/
def State.consume (s : State) (phase : DecPhase) (acc : Val) (n : Fin (Config.capGroups + 1)) : State :=
  { s with decState := phase, decAcc := acc, decCnt := n }

/-- The write of `DEC_END` (R114). -/
def State.finishDecode (s : State) : State := { s with decState := .done }

/-! ## Steps -/

/-- A `SIZE.w` evaluation (R67): in any state; no register read or written. -/
def sizeEval (w : Width) (val : Val) (s : State) : Result := .next (s.sawSize (sizeOut w val))

/-- `ENC_START` (R88), in IDLE; not accepted in RUN (R154). -/
def encStart (w : Width) (val : Val) (s : State) : Result :=
  match s.encState with
  | .idle => .next (s.loadEncoder (widen (widthBits Config.pbits w) val))
  | .run => .refused .encBusy

/-- `ENC_EMIT` (R89), in RUN: shift while more follows, else clear and go to IDLE. -/
def encEmit (s : State) : Result :=
  match s.encState with
  | .idle => .refused .encNotRunning
  | .run =>
    if moreFollows s.encRem then
      .next (s.emit .run (s.encRem >>> Config.groupBits) (emitByte s.encRem))
    else
      .next (s.emit .idle 0 (emitByte s.encRem))

/-- `DEC_START` (R112), in IDLE or DONE; not accepted in RUN (R154). -/
def decStart (w : Width) (input : List Byte) (s : State) : Result :=
  match s.decState with
  | .idle => .next (s.loadDecoder w input)
  | .run => .refused .decBusy
  | .done => .next (s.loadDecoder w input)

/-- The phase after consuming byte `b` as byte number `n` (R113). -/
def phaseAfter (n : Nat) (b : Byte) : DecPhase := if stopsAfter n b then .done else .run

/-- `DEC_BYTE` (R113), in RUN with a byte left. A count of 10 in RUN is never reached (R23 item 4) and stuck (U11). -/
def decByte (s : State) : Result :=
  match s.decState with
  | .idle => .refused .decNotRunning
  | .done => .refused .decNotRunning
  | .run =>
    match s.inByte? with
    | none => .refused .noByteLeft
    | some b =>
      if h : s.decCnt.val < Config.capGroups then
        .next (s.consume (phaseAfter s.decCnt.val b) (mergeGroup s.decAcc s.decCnt.val b)
          ⟨s.decCnt.val + 1, Nat.succ_lt_succ h⟩)
      else .fault .countPastCap

/-- `DEC_END` (R114), in RUN with `dec_cnt = len(In)`. -/
def decEnd (s : State) : Result :=
  match s.decState with
  | .idle => .refused .decNotRunning
  | .done => .refused .decNotRunning
  | .run => if s.decCnt.val = s.inp.length then .next s.finishDecode else .refused .notAtEnd

/-- `DEC_RESULT` (R115), in DONE; it changes no register and may be repeated. -/
def decResult (s : State) : Result :=
  match s.decState with
  | .idle => .refused .resultNotReady
  | .run => .refused .resultNotReady
  | .done => .next (s.sawResult s.decValue s.decCount)

/-- HOST reads the status levels (R142): in any state; no register changes. -/
def readStatus (s : State) : Result := .next (s.sawStatus s.statusLevels)

/-- `RESET` (R150), in any state: the reset state of R24 whatever the state was; HOST's further moments stay HOST's. -/
def resetStep (s : State) : Result := .next (State.reset.withAgenda s.agenda)

end Sys2Proof.Machine
end

