-- ==== Sys2Proof/Machine/Dec.lean ====
section
/-! DEFINITION. The DEC family (42_decode.md section 2), a meaning per operation: the command is `DEC_START` (R112); the bytes of `In` follow by `DEC_BYTE` and `DEC_END` (R113, R114), the result by `DEC_RESULT` (R115). -/

namespace Sys2Proof.Machine

/-- `DEC.W8` (R107). -/
def execDecW8 (input : List Byte) (s : State) : Result := decStart .w8 input s

/-- `DEC.W16` (R108). -/
def execDecW16 (input : List Byte) (s : State) : Result := decStart .w16 input s

/-- `DEC.W32` (R109). -/
def execDecW32 (input : List Byte) (s : State) : Result := decStart .w32 input s

/-- `DEC.W64` (R110). -/
def execDecW64 (input : List Byte) (s : State) : Result := decStart .w64 input s

/-- `DEC.WP` (R111). -/
def execDecWP (input : List Byte) (s : State) : Result := decStart .wp input s

end Sys2Proof.Machine
end

