-- ==== Sys2Proof/Machine/Enc.lean ====
section
/-! DEFINITION. The ENC family (41_encode.md section 2), a meaning per operation: the command is `ENC_START` (R88); the bytes follow by `ENC_EMIT` (R89), one step each, when HOST accepts them (R160). -/

namespace Sys2Proof.Machine

/-- `ENC.W8` (R83). -/
def execEncW8 (val : Val) (s : State) : Result := encStart .w8 val s

/-- `ENC.W16` (R84). -/
def execEncW16 (val : Val) (s : State) : Result := encStart .w16 val s

/-- `ENC.W32` (R85). -/
def execEncW32 (val : Val) (s : State) : Result := encStart .w32 val s

/-- `ENC.W64` (R86). -/
def execEncW64 (val : Val) (s : State) : Result := encStart .w64 val s

/-- `ENC.WP` (R87). -/
def execEncWP (val : Val) (s : State) : Result := encStart .wp val s

end Sys2Proof.Machine
end

