-- ==== Sys2Proof/Machine/Size.lean ====
section
/-! DEFINITION. The SIZE family (40_required_size.md section 2), a meaning per operation: one evaluation step of HOST (R67). -/

namespace Sys2Proof.Machine

/-- `SIZE.W8` (R68). -/
def execSizeW8 (val : Val) (s : State) : Result := sizeEval .w8 val s

/-- `SIZE.W16` (R69). -/
def execSizeW16 (val : Val) (s : State) : Result := sizeEval .w16 val s

/-- `SIZE.W32` (R70). -/
def execSizeW32 (val : Val) (s : State) : Result := sizeEval .w32 val s

/-- `SIZE.W64` (R71). -/
def execSizeW64 (val : Val) (s : State) : Result := sizeEval .w64 val s

/-- `SIZE.WP` (R72). -/
def execSizeWP (val : Val) (s : State) : Result := sizeEval .wp val s

end Sys2Proof.Machine
end

