-- ==== Sys2Proof/Machine/Dispatch.lean ====
section
/-! DEFINITION. One arm per operation of spec/opcode_table.json, each one call of its meaning. -/

namespace Sys2Proof.Machine

def exec (i : Instr) (s : State) : Host.Outcome State Fault Refusal :=
  match i with
  | .sizeW8 val => Sys2Proof.Machine.execSizeW8 val s
  | .sizeW16 val => Sys2Proof.Machine.execSizeW16 val s
  | .sizeW32 val => Sys2Proof.Machine.execSizeW32 val s
  | .sizeW64 val => Sys2Proof.Machine.execSizeW64 val s
  | .sizeWP val => Sys2Proof.Machine.execSizeWP val s
  | .encW8 val => Sys2Proof.Machine.execEncW8 val s
  | .encW16 val => Sys2Proof.Machine.execEncW16 val s
  | .encW32 val => Sys2Proof.Machine.execEncW32 val s
  | .encW64 val => Sys2Proof.Machine.execEncW64 val s
  | .encWP val => Sys2Proof.Machine.execEncWP val s
  | .decW8 input => Sys2Proof.Machine.execDecW8 input s
  | .decW16 input => Sys2Proof.Machine.execDecW16 input s
  | .decW32 input => Sys2Proof.Machine.execDecW32 input s
  | .decW64 input => Sys2Proof.Machine.execDecW64 input s
  | .decWP input => Sys2Proof.Machine.execDecWP input s

end Sys2Proof.Machine
end

