-- ==== Sys2Proof/Machine/Agenda.lean ====
section
/-! DEFINITION. Taking what HOST offers at one moment: a command through the decoder, a step of a unit, a read, or RESET. -/

namespace Sys2Proof.Machine

/-- The refusal of a reserved command word (R57). -/
def refusalOf : DecodeError → Refusal
  | .reservedOp => .reservedOp
  | .reservedWidth => .reservedWidth

/-- A command presented at the port (R21): accepted as one of the 15 operations, or refused. -/
def takeCommand (c : Command) (s : State) : Result :=
  match decode c with
  | .ok i => exec i s
  | .error e => .refused (refusalOf e)

/-- One move (R7, R142). -/
def takeMove (m : Move) (s : State) : Result :=
  match m with
  | .command c => takeCommand c s
  | .encEmit => encEmit s
  | .decByte => decByte s
  | .decEnd => decEnd s
  | .readResult => decResult s
  | .readStatus => readStatus s

/-- One moment: RESET wins over whatever is offered beside it (R138, R150); nothing offered changes nothing (R143, R160). -/
def takeMoment (m : Moment) (s : State) : Result :=
  if m.reset then resetStep s
  else
    match m.move with
    | none => .next s
    | some mv => takeMove mv s

/-- The next moment of HOST's agenda. With an empty agenda HOST offers nothing and the block waits unchanged (R143, R160;
log entry 3). -/
def takeNext (s : State) : Result :=
  match s.agenda with
  | [] => .next s
  | m :: rest => takeMoment m (s.withAgenda rest)

/-- A moment at which HOST presents a command and nothing else. -/
def presenting (c : Command) : Moment := { reset := false, move := some (.command c) }

end Sys2Proof.Machine
end

