-- ==== Sys2Proof/Machine/Step.lean ====
section
/-! DEFINITION. The step of the machine: the next moment of HOST's agenda is taken. -/

namespace Sys2Proof.Machine

/-- One step (R7, R162): whichever agent HOST's agenda names next takes its atomic step. -/
def step (s : State) : Host.Outcome State Fault Refusal := Sys2Proof.Machine.takeNext s

/-- `s` with HOST presenting the table word `w` at the next moment, operand lines zero and input sequence empty (log entry 14). A
number that is no 5-bit command word cannot be presented and leaves `s` as it is. -/
def State.withFetchWord (s : State) (nbits w : Nat) : State :=
  match Sys2Proof.tableCommand nbits w with
  | none => s
  | some c => s.withAgenda (presenting c :: s.agenda)

end Sys2Proof.Machine
end

