-- ==== Sys2Proof/Machine/Drive.lean ====
section
/-! DEFINITION. HOST driving the block past moves that are not accepted. `step` stops at such a move by name; the hardware is
unchanged by it and HOST goes on to its next moment (R21, R57, R154, R156: not accepted, no effect, not remembered). -/

namespace Sys2Proof.Machine

/-- The next moment dropped, everything else as it was. -/
def State.dropMoment (s : State) : State := s.withAgenda s.agenda.tail

/-- One moment of HOST's agenda, whether its move is accepted or not. -/
def settle (s : State) : State :=
  match step s with
  | .next t => t
  | .refused _ => s.dropMoment
  | .fault _ => s.dropMoment

/-- `n` moments one after the other. -/
def drive : Nat → State → State
  | 0, s => s
  | n + 1, s => drive n (settle s)

/-- HOST's agenda played to its end from `s`. -/
def play (s : State) (ms : List Moment) : State := drive ms.length (s.withAgenda ms)

/-- A moment at which one move and nothing else is offered. -/
def offering (m : Move) : Moment := { reset := false, move := some m }

end Sys2Proof.Machine
end

