-- ==== Sys2Proof/Safety.lean ====
section
/-! DEFINITION. The terms claims use: the invariants of the reachable states (10_state.md R23), the spec's closed forms beside
the model's loops, and what a unit's part of the state is. -/

namespace Sys2Proof.Machine

/-! ## The spec's closed forms -/

/-- `bit_length` (00_scope.md R8): 0 for 0, else one more than the index of the highest set bit. -/
def bitLength (n : Nat) : Nat := if n = 0 then 0 else Nat.log2 n + 1

/-- `ceil(n / 7)` (R8). -/
def ceilSeven (n : Nat) : Nat := (n + 6) / 7

/-- The threshold table of 40_required_size.md R65. -/
def sizeByThreshold (n : Nat) : Nat :=
  if n < 2 ^ 7 then 1
  else if n < 2 ^ 14 then 2
  else if n < 2 ^ 21 then 3
  else if n < 2 ^ 28 then 4
  else if n < 2 ^ 35 then 5
  else if n < 2 ^ 42 then 6
  else if n < 2 ^ 49 then 7
  else if n < 2 ^ 56 then 8
  else if n < 2 ^ 63 then 9
  else 10

/-- The index of the first terminator among the first ten bytes (42_decode.md R100, closed form): the `t` of that rule. -/
def terminatorIndex (input : List Byte) : Option Nat := (input.take Config.capGroups).findIdx? fun b => !continues b

/-- The count in the closed form of R100: `t + 1`, or `min(len(In), 10)` where there is no `t`. -/
def closedCount (input : List Byte) : Nat :=
  match terminatorIndex input with
  | some t => t + 1
  | none => min input.length Config.capGroups

/-- The OR over `i < n` of the placed groups of `input` (30_encoding.md R48; R100, closed form). -/
def orGroups (input : List Byte) : Nat → Val
  | 0 => 0
  | n + 1 => orGroups input n ||| placeGroup n (input.getD n 0)

/-- The input is over-long (00_scope.md glossary): its terminator, among the first ten bytes and not the first, carries a zero
group. -/
def OverLong (input : List Byte) : Prop :=
  ∃ t, 0 < t ∧ t < Config.capGroups ∧ (∀ b ∈ input.take t, continues b = true) ∧ input[t]? = some 0x00#8

/-- The value the first `n` bytes spell in exact arithmetic, nothing cut to 64 bits (42_decode.md R103: the 70 bits of groups). -/
def exactSum (input : List Byte) : Nat → Nat
  | 0 => 0
  | n + 1 => exactSum input n + (groupOf (input.getD n 0)).toNat * 2 ^ (Config.groupBits * n)

/-- The test of 60_exceptions.md R147 that an input was canonical, on the input and the count `n` of its decode: terminated
properly, and a single byte or a non-zero last group, and no bits lost in the tenth group. -/
def canonicalTest (input : List Byte) (n : Nat) : Prop :=
  1 ≤ n ∧ ∃ b, input[n - 1]? = some b ∧ continues b = false ∧ (n = 1 ∨ groupOf b ≠ 0) ∧
    ¬ (n = Config.capGroups ∧ b.extractLsb' 1 6 ≠ 0)

/-- Some byte among the first ten has bit 7 clear (00_scope.md glossary: terminated sequence). -/
def Terminated (input : List Byte) : Prop := ∃ t, t < Config.capGroups ∧ ∃ b, input[t]? = some b ∧ continues b = false

/-! ## Invariants of the reachable states -/

/-- R23 items 1 and 6: IDLE has `enc_rem = 0` and a complete or no output; RUN has the operand shifted and a proper prefix. -/
def EncInv (s : State) : Prop :=
  match s.encState with
  | .idle => s.encRem = 0 ∧ (s.out = [] ∨ ∃ v : Val, s.out = enc64 v)
  | .run => ∃ v : Val, s.encRem = v >>> (Config.groupBits * s.out.length) ∧ s.out = (enc64 v).take s.out.length ∧
      s.out.length < size64 v

/-- R23 items 3, 4 and 5: IDLE is the reset state of DEC; RUN has consumed continuation bytes only and holds their groups; DONE
holds the result of `DEC64`. -/
def DecInv (s : State) : Prop :=
  match s.decState with
  | .idle => s.decAcc = 0 ∧ s.decCnt = 0 ∧ s.decW = .w8 ∧ s.inp = []
  | .run => s.decCnt.val < Config.capGroups ∧ s.decCnt.val ≤ s.inp.length ∧
      (∀ b ∈ s.inp.take s.decCnt.val, continues b = true) ∧ s.decAcc = orGroups s.inp s.decCnt.val
  | .done => (s.decAcc, s.decCnt.val) = dec64 s.inp

/-- The invariant of R23 (item 2 holds by the types). -/
def State.Inv (s : State) : Prop := EncInv s ∧ DecInv s

/-- A step that did not end in a fault. -/
def NoFault (r : Result) : Prop := ∀ f, r ≠ .fault f

/-! ## The two units -/

/-- The encoder's part of the state: its registers, `Out` and the byte HOST last took (R26). -/
structure EncPart where
  encState : EncPhase
  encRem   : Val
  out      : List Byte
  emitted  : Option (Byte × Bool)
  deriving DecidableEq, Repr

/-- The decoder's part of the state: its registers, `In` and the result HOST last read (R26). -/
structure DecPart where
  decState : DecPhase
  decAcc   : Val
  decCnt   : Fin (Config.capGroups + 1)
  decW     : Width
  inp      : List Byte
  result   : Option (Val × BitVec 4)
  deriving DecidableEq, Repr

/-- The encoder's part of a state. -/
def State.encPart (s : State) : EncPart :=
  { encState := s.encState, encRem := s.encRem, out := s.out, emitted := s.seen.emitted }

/-- The decoder's part of a state. -/
def State.decPart (s : State) : DecPart :=
  { decState := s.decState, decAcc := s.decAcc, decCnt := s.decCnt, decW := s.decW, inp := s.inp, result := s.seen.result }

/-- The move is one of the encoder's: an `ENC.w` command or `ENC_EMIT`. -/
def Move.forEnc : Move → Bool
  | .command c => opField c.cmd == 0b01#2
  | .encEmit => true
  | .decByte | .decEnd | .readResult | .readStatus => false

/-- The move is one of the decoder's: a `DEC.w` command, `DEC_BYTE`, `DEC_END` or `DEC_RESULT`. -/
def Move.forDec : Move → Bool
  | .command c => opField c.cmd == 0b10#2
  | .decByte | .decEnd | .readResult => true
  | .encEmit | .readStatus => false

/-- The moment can touch the encoder: RESET, or a move of the encoder. -/
def Moment.forEnc (m : Moment) : Bool := m.reset || m.move.any Move.forEnc

/-- The moment can touch the decoder: RESET, or a move of the decoder. -/
def Moment.forDec (m : Moment) : Bool := m.reset || m.move.any Move.forDec

end Sys2Proof.Machine
end

