-- ==== Sys2Proof/Certificates/Slice0/Obligations.lean ====
section
/-! DEFINITION. The statements for the provers, from the spec's numbered rules. -/

open Sys2Proof Sys2Proof.Machine

/-! ## Commands and encodings -/

/-- 30_encoding.md R62: the complete command map, one clause per word, the 17 reserved words together. -/
def Obligations.CommandMapDecodes : Prop :=
  ∀ (v : Val) (x : List Byte),
    decode ⟨0b00000#5, v, x⟩ = .ok (.sizeW8 v) ∧ decode ⟨0b00001#5, v, x⟩ = .ok (.sizeW16 v) ∧
    decode ⟨0b00010#5, v, x⟩ = .ok (.sizeW32 v) ∧ decode ⟨0b00011#5, v, x⟩ = .ok (.sizeW64 v) ∧
    decode ⟨0b00100#5, v, x⟩ = .ok (.sizeWP v) ∧
    decode ⟨0b01000#5, v, x⟩ = .ok (.encW8 v) ∧ decode ⟨0b01001#5, v, x⟩ = .ok (.encW16 v) ∧
    decode ⟨0b01010#5, v, x⟩ = .ok (.encW32 v) ∧ decode ⟨0b01011#5, v, x⟩ = .ok (.encW64 v) ∧
    decode ⟨0b01100#5, v, x⟩ = .ok (.encWP v) ∧
    decode ⟨0b10000#5, v, x⟩ = .ok (.decW8 x) ∧ decode ⟨0b10001#5, v, x⟩ = .ok (.decW16 x) ∧
    decode ⟨0b10010#5, v, x⟩ = .ok (.decW32 x) ∧ decode ⟨0b10011#5, v, x⟩ = .ok (.decW64 x) ∧
    decode ⟨0b10100#5, v, x⟩ = .ok (.decWP x) ∧
    ∀ w ∈ [0b00101#5, 0b00110#5, 0b00111#5, 0b01101#5, 0b01110#5, 0b01111#5, 0b10101#5, 0b10110#5, 0b10111#5,
        0b11000#5, 0b11001#5, 0b11010#5, 0b11011#5, 0b11100#5, 0b11101#5, 0b11110#5, 0b11111#5],
      ∃ e, decode ⟨w, v, x⟩ = .error e

/-- Decode and encode agree in both directions (30_encoding.md sections 4 and 5): an encoded operation decodes to itself, and a
command decodes to an operation exactly when it has that operation's word and its used operand lines. -/
def Obligations.DecodeEncodeAgree : Prop :=
  (∀ i : Instr, decode (encode i) = .ok i) ∧
  ∀ (c : Command) (i : Instr), decode c = .ok i ↔
    c.cmd = (encode i).cmd ∧ (∀ v, i.val? = some v → c.val = v) ∧ (∀ x, i.input? = some x → c.input = x)

/-- 30_encoding.md R57: which words are reserved, that there are 17, and that presenting one is refused with nothing changed. -/
def Obligations.ReservedCommandRefused : Prop :=
  (∀ c : Command, (c.cmd.toNat / 8 = 3 ∨ 5 ≤ c.cmd.toNat % 8) ↔ ∃ e, decode c = .error e) ∧
  ((List.range 32).filter fun n => n / 8 = 3 ∨ 5 ≤ n % 8).length = 17 ∧
  ∀ (s : State) (c : Command) (rest : List Moment), s.agenda = presenting c :: rest →
    (c.cmd.toNat / 8 = 3 ∨ 5 ≤ c.cmd.toNat % 8) →
    (step s = .refused .reservedOp ∨ step s = .refused .reservedWidth) ∧ settle s = s.withAgenda rest

/-- A step runs the decoded instruction (10_state.md R21): where HOST presents a command that decodes to `i`, the step is `exec`
of `i` with the moment taken off the agenda. -/
def Obligations.StepRunsTheCommand : Prop :=
  ∀ (s : State) (c : Command) (i : Instr) (rest : List Moment),
    s.agenda = presenting c :: rest → decode c = .ok i → step s = exec i (s.withAgenda rest)

/-- The other moments (00_scope.md R7; 70_reset_and_hazards.md R160; log entries 1 and 3): a step takes the offered move, and
where nothing is offered the block waits unchanged. -/
def Obligations.StepTakesTheMove : Prop :=
  (∀ (s : State) (m : Move) (rest : List Moment), s.agenda = offering m :: rest →
    step s = takeMove m (s.withAgenda rest)) ∧
  (∀ (s : State) (rest : List Moment), s.agenda = ⟨false, none⟩ :: rest → step s = .next (s.withAgenda rest)) ∧
  (∀ s : State, s.agenda = [] → step s = .next s)

/-! ## Reset -/

/-- 10_state.md R24, 70_reset_and_hazards.md R150: the reset values of the six registers, `In` and `Out`; and after `RESET`, which
is taken in every state and wins over any move offered beside it, they hold these values. -/
def Obligations.ResetRegisterValues : Prop :=
  (State.reset.encState = .idle ∧ State.reset.encRem = 0 ∧ State.reset.decState = .idle ∧ State.reset.decAcc = 0 ∧
    State.reset.decCnt = 0 ∧ State.reset.decW.code = 0 ∧ State.reset.inp = [] ∧ State.reset.out = []) ∧
  ∀ (s : State) (mv : Option Move) (rest : List Moment), s.agenda = ⟨true, mv⟩ :: rest →
    ∃ t, step s = .next t ∧ t.encState = .idle ∧ t.encRem = 0 ∧ t.decState = .idle ∧ t.decAcc = 0 ∧ t.decCnt = 0 ∧
      t.decW.code = 0 ∧ t.inp = [] ∧ t.out = []

/-- `RESET` as a whole step (70_reset_and_hazards.md section 1): enabled in every state, it wins over any move offered beside it
and leaves exactly `State.reset`. That `seen` is cleared with it is the model's choice (log entry 5), and that HOST's further
moments stay HOST's is too (log entry 1). -/
def Obligations.ResetWinsFromEveryState : Prop :=
  ∀ (s : State) (mv : Option Move) (rest : List Moment), s.agenda = ⟨true, mv⟩ :: rest →
    step s = .next
      { encState := .idle, encRem := 0, decState := .idle, decAcc := 0, decCnt := 0, decW := .w8, inp := [], out := [],
        seen := Seen.none, agenda := rest }

/-! ## SIZE -/

/-- 40_required_size.md R65: the closed form, the range, the thresholds, and that it counts the bytes of `ENC64`. -/
def Obligations.SizeIsTheBitLengthFormula : Prop :=
  ∀ v : Val, size64 v = max 1 (ceilSeven (bitLength v.toNat)) ∧ size64 v = sizeByThreshold v.toNat ∧
    1 ≤ size64 v ∧ size64 v ≤ 10 ∧ size64 v = (enc64 v).length

/-- 40_required_size.md R67 to R72: the five evaluations, in every state, with every effect they have (`size_out` as HOST takes
it, and nothing else), the words that select them and the ranges of their results. -/
def Obligations.SizeEvaluatesInEveryState : Prop :=
  ∀ (v : Val) (x : List Byte) (s : State),
    (decode ⟨0b00000#5, v, x⟩ = .ok (.sizeW8 v) ∧
      exec (.sizeW8 v) s = .next { s with seen := { s.seen with size := some (if v.toNat % 2 ^ 8 < 128 then 1 else 2) } }) ∧
    (decode ⟨0b00001#5, v, x⟩ = .ok (.sizeW16 v) ∧
      exec (.sizeW16 v) s = .next { s with seen := { s.seen with
        size := some (if v.toNat % 2 ^ 16 < 128 then 1 else if v.toNat % 2 ^ 16 < 16384 then 2 else 3) } }) ∧
    (decode ⟨0b00010#5, v, x⟩ = .ok (.sizeW32 v) ∧ 1 ≤ sizeByThreshold (v.toNat % 2 ^ 32) ∧
      sizeByThreshold (v.toNat % 2 ^ 32) ≤ 5 ∧
      exec (.sizeW32 v) s = .next { s with seen := { s.seen with
        size := some (BitVec.ofNat 4 (sizeByThreshold (v.toNat % 2 ^ 32))) } }) ∧
    (decode ⟨0b00011#5, v, x⟩ = .ok (.sizeW64 v) ∧ 1 ≤ sizeByThreshold v.toNat ∧ sizeByThreshold v.toNat ≤ 10 ∧
      exec (.sizeW64 v) s = .next { s with seen := { s.seen with
        size := some (BitVec.ofNat 4 (sizeByThreshold v.toNat)) } }) ∧
    (decode ⟨0b00100#5, v, x⟩ = .ok (.sizeWP v) ∧ 1 ≤ sizeByThreshold (v.toNat % 2 ^ Config.pbits) ∧
      sizeByThreshold (v.toNat % 2 ^ Config.pbits) ≤ ceilSeven Config.pbits ∧
      exec (.sizeWP v) s = .next { s with seen := { s.seen with
        size := some (BitVec.ofNat 4 (sizeByThreshold (v.toNat % 2 ^ Config.pbits))) } } ∧
      opSize 64 .wp v = opSize 64 .w64 v ∧ opSize 32 .wp v = opSize 32 .w32 v)

/-- 43_width_adapters.md section 2, the byte budget (the spec marks it derived): at every width and for every PBITS the size is 1 to `ceil(W/7)`. -/
def Obligations.SizeWithinTheByteBudget : Prop :=
  ∀ (p : Nat) (w : Width) (v : Val), 1 ≤ p → p ≤ 64 →
    1 ≤ opSize p w v ∧ opSize p w v ≤ ceilSeven (widthBits p w) ∧ (opEnc p w v).length = opSize p w v

/-- 95_test_vectors.md section 6 law 8: the size is monotone. -/
def Obligations.SizeIsMonotone : Prop := ∀ u v : Val, u.toNat ≤ v.toNat → size64 u ≤ size64 v

/-- 40_required_size.md R66: no value of `size_out` other than 1 to 10 is ever taken by HOST; an invariant of the step. -/
def Obligations.SizeOutStaysInRange : Prop :=
  ∀ s t : State, (∀ n, s.seen.size = some n → 1 ≤ n.toNat ∧ n.toNat ≤ 10) → step s = .next t →
    ∀ n, t.seen.size = some n → 1 ≤ n.toNat ∧ n.toNat ≤ 10

/-! ## ENC -/

/-- 30_encoding.md R47 and 41_encode.md R80: the layout, bit by bit: byte `i` carries value bits `7*i + 6` to `7*i`, its bit 7
is set exactly when another byte follows, and there are `SIZE64(v)` bytes. -/
def Obligations.EncodedBytesCarryTheGroups : Prop :=
  ∀ v : Val, (enc64 v).length = size64 v ∧
    (∀ (i : Nat) (b : Byte), (enc64 v)[i]? = some b →
      (∀ j, j < 7 → b.getLsbD j = v.getLsbD (7 * i + j)) ∧ (b.getLsbD 7 = true ↔ i < size64 v - 1)) ∧
    ∀ i, size64 v ≤ i → groupAt v i = 0

/-- 41_encode.md section 1: the loop gives the closed form for every value (the spec marks the agreement derived). -/
def Obligations.EncodeLoopIsTheClosedForm : Prop :=
  ∀ (v : Val) (fuel : Nat), 9 ≤ fuel → encodeLoop fuel v = enc64 v

/-- 41_encode.md section 1, the properties of `ENC64` 1 to 6 (the spec marks the sixth derived). -/
def Obligations.EncodedFormIsMinimalAndInjective : Prop :=
  ∀ v : Val,
    ((enc64 v).length = size64 v ∧ 1 ≤ (enc64 v).length ∧ (enc64 v).length ≤ 10) ∧
    (∀ (i : Nat) (b : Byte), (enc64 v)[i]? = some b → (continues b = true ↔ i + 1 < (enc64 v).length)) ∧
    enc64 0 = [0x00#8] ∧
    (1 < (enc64 v).length → ∀ b, (enc64 v).getLast? = some b → b ≠ 0x00#8) ∧
    dec64 (enc64 v) = (v, size64 v) ∧
    ∀ u : Val, enc64 u = enc64 v → u = v

/-- 41_encode.md R83 to R87: the outputs per width, the words that select them, and the corner cases and
examples those rules list. -/
def Obligations.EncodeOutputsPerWidth : Prop :=
  (∀ (p : Nat) (v : Val) (x : List Byte), 1 ≤ p → p ≤ 64 →
    (decode ⟨0b01000#5, v, x⟩ = .ok (.encW8 v) ∧ opEnc p .w8 v = enc64 (BitVec.ofNat 64 (v.toNat % 2 ^ 8)) ∧
      opEnc p .w8 v = if v.toNat % 2 ^ 8 < 128 then [BitVec.ofNat 8 v.toNat] else [BitVec.ofNat 8 v.toNat, 0x01#8]) ∧
    (decode ⟨0b01001#5, v, x⟩ = .ok (.encW16 v) ∧ opEnc p .w16 v = enc64 (BitVec.ofNat 64 (v.toNat % 2 ^ 16)) ∧
      1 ≤ (opEnc p .w16 v).length ∧ (opEnc p .w16 v).length ≤ 3 ∧
      ∀ b, (opEnc p .w16 v)[2]? = some b → b.toNat = v.toNat % 2 ^ 16 / 2 ^ 14 ∧ 1 ≤ b.toNat ∧ b.toNat ≤ 3) ∧
    (decode ⟨0b01010#5, v, x⟩ = .ok (.encW32 v) ∧ opEnc p .w32 v = enc64 (BitVec.ofNat 64 (v.toNat % 2 ^ 32)) ∧
      1 ≤ (opEnc p .w32 v).length ∧ (opEnc p .w32 v).length ≤ 5 ∧
      ∀ b, (opEnc p .w32 v)[4]? = some b → b.toNat = v.toNat % 2 ^ 32 / 2 ^ 28 ∧ 1 ≤ b.toNat ∧ b.toNat ≤ 15) ∧
    (decode ⟨0b01011#5, v, x⟩ = .ok (.encW64 v) ∧ opEnc p .w64 v = enc64 v ∧
      1 ≤ (opEnc p .w64 v).length ∧ (opEnc p .w64 v).length ≤ 10 ∧
      ((opEnc p .w64 v).length = 10 ↔ v.getLsbD 63 = true) ∧ ∀ b, (opEnc p .w64 v)[9]? = some b → b = 0x01#8) ∧
    (decode ⟨0b01100#5, v, x⟩ = .ok (.encWP v) ∧ opEnc p .wp v = enc64 (BitVec.ofNat 64 (v.toNat % 2 ^ p)) ∧
      1 ≤ (opEnc p .wp v).length ∧ (opEnc p .wp v).length ≤ ceilSeven p ∧
      opEnc 64 .wp v = opEnc 64 .w64 v ∧ opEnc 32 .wp v = opEnc 32 .w32 v)) ∧
  ∀ p : Nat,
    (opEnc p .w8 0 = [0x00#8] ∧ opEnc p .w8 127 = [0x7F#8] ∧ opEnc p .w8 128 = [0x80#8, 0x01#8] ∧
      opEnc p .w8 255 = [0xFF#8, 0x01#8]) ∧
    (opEnc p .w16 0 = [0x00#8] ∧ opEnc p .w16 300 = [0xAC#8, 0x02#8] ∧ opEnc p .w16 0x3FFF = [0xFF#8, 0x7F#8] ∧
      opEnc p .w16 0x4000 = [0x80#8, 0x80#8, 0x01#8] ∧ opEnc p .w16 0xFFFF = [0xFF#8, 0xFF#8, 0x03#8]) ∧
    (opEnc p .w32 0 = [0x00#8] ∧ opEnc p .w32 0x0FFFFFFF = [0xFF#8, 0xFF#8, 0xFF#8, 0x7F#8] ∧
      opEnc p .w32 0x10000000 = [0x80#8, 0x80#8, 0x80#8, 0x80#8, 0x01#8] ∧
      opEnc p .w32 0xFFFFFFFF = [0xFF#8, 0xFF#8, 0xFF#8, 0xFF#8, 0x0F#8] ∧
      opEnc p .w32 0xDEADBEEF = [0xEF#8, 0xFD#8, 0xB6#8, 0xF5#8, 0x0D#8]) ∧
    (opEnc p .w64 0 = [0x00#8] ∧ opEnc p .w64 0x7FFFFFFFFFFFFFFF = List.replicate 8 0xFF#8 ++ [0x7F#8] ∧
      opEnc p .w64 0x8000000000000000 = List.replicate 9 0x80#8 ++ [0x01#8] ∧
      opEnc p .w64 0xFFFFFFFFFFFFFFFF = List.replicate 9 0xFF#8 ++ [0x01#8] ∧
      opEnc p .w64 0x0123456789ABCDEF =
        [0xEF#8, 0x9B#8, 0xAF#8, 0xCD#8, 0xF8#8, 0xAC#8, 0xD1#8, 0x91#8, 0x01#8]) ∧
    opEnc 64 .wp 128 = [0x80#8, 0x01#8]

/-- 41_encode.md R88: `ENC_START` of the five operations. In IDLE it loads the widened operand, goes to RUN and empties `Out`,
and changes nothing else; in RUN the step does not exist. -/
def Obligations.EncodeStartLoadsTheOperand : Prop :=
  (∀ (v : Val) (s : State), s.encState = .idle →
    exec (.encW8 v) s = .next { s with encState := .run, encRem := BitVec.ofNat 64 (v.toNat % 2 ^ 8), out := [] } ∧
    exec (.encW16 v) s = .next { s with encState := .run, encRem := BitVec.ofNat 64 (v.toNat % 2 ^ 16), out := [] } ∧
    exec (.encW32 v) s = .next { s with encState := .run, encRem := BitVec.ofNat 64 (v.toNat % 2 ^ 32), out := [] } ∧
    exec (.encW64 v) s = .next { s with encState := .run, encRem := v, out := [] } ∧
    exec (.encWP v) s =
      .next { s with encState := .run, encRem := BitVec.ofNat 64 (v.toNat % 2 ^ Config.pbits), out := [] }) ∧
  ∀ (v : Val) (s : State), s.encState = .run →
    exec (.encW8 v) s = .refused .encBusy ∧ exec (.encW16 v) s = .refused .encBusy ∧
    exec (.encW32 v) s = .refused .encBusy ∧ exec (.encW64 v) s = .refused .encBusy ∧
    exec (.encWP v) s = .refused .encBusy

/-- 41_encode.md R89 and R90: `ENC_EMIT`. One byte with its continuation bit and `out_last`; the remaining value shifted, or
cleared with ENC going to IDLE on the final byte; nothing else changes. In IDLE the step does not exist. In port terms
(20_memory.md section 3): `out_valid` is exactly RUN, and the byte the emit appends is the `out_byte` on offer, with its
`out_last`. -/
def Obligations.EncodeEmitsOneByte : Prop :=
  ∀ s : State,
    (s.encState = .run → 128 ≤ s.encRem.toNat →
      encEmit s = .next { s with
        encRem := BitVec.ofNat 64 (s.encRem.toNat / 128)
        out := s.out ++ [BitVec.ofNat 8 (128 + s.encRem.toNat % 128)]
        seen := { s.seen with emitted := some (BitVec.ofNat 8 (128 + s.encRem.toNat % 128), false) } }) ∧
    (s.encState = .run → s.encRem.toNat < 128 →
      encEmit s = .next { s with
        encState := .idle
        encRem := 0
        out := s.out ++ [BitVec.ofNat 8 s.encRem.toNat]
        seen := { s.seen with emitted := some (BitVec.ofNat 8 s.encRem.toNat, true) } }) ∧
    (s.encState = .idle → encEmit s = .refused .encNotRunning) ∧
    (s.outValid = true ↔ s.encState = .run) ∧
    (s.encState = .run → ∃ t, encEmit s = .next t ∧ t.out = s.out ++ [s.outByte] ∧
      t.seen.emitted = some (s.outByte, outLast s.outByte))

/-- 70_reset_and_hazards.md section 3 (output bytes must be taken): while HOST does not accept the byte, ENC waits in RUN with the
same byte on offer, unchanged, whatever else HOST does but `RESET` (an `ENC.w` command among it is refused); the next emit appends
that byte. -/
def Obligations.OutputByteWaitsForHost : Prop :=
  ∀ (s : State) (ms : List Moment), s.encState = .run → (∀ m ∈ ms, m.reset = false ∧ m.move ≠ some .encEmit) →
    (play s ms).encPart = s.encPart ∧ (play s ms).outValid = true ∧ (play s ms).outByte = s.outByte ∧
    ∃ t, encEmit (play s ms) = .next t ∧ t.out = s.out ++ [s.outByte]

/-- 41_encode.md R91: from any state in RUN, reachable or not, the encoder is back in IDLE after 1 to 10 emit steps, and in RUN
before each of them. -/
def Obligations.EncodeEndsWithinTenEmits : Prop :=
  ∀ s : State, s.encState = .run → ∃ k, 1 ≤ k ∧ k ≤ 10 ∧
    (play s (List.replicate k (offering .encEmit))).encState = .idle ∧
    ∀ j, j < k → (play s (List.replicate j (offering .encEmit))).encState = .run

/-- 41_encode.md R92, the agreement of the levels for ENC: from IDLE, the command and exactly `SIZE.w(val)` emit steps are all
accepted and leave `Out = ENC.w(val)`, the last byte marked; before that many the encoder is still in RUN; DEC is untouched. -/
def Obligations.EncoderRealisesEncode : Prop :=
  ∀ (s : State) (w : Width) (v : Val) (rest : List Moment), s.encState = .idle →
    (∃ t, core.run (opSize Config.pbits w v + 1)
        (s.withAgenda (presenting (encode (instrOf .enc w v [])) ::
          (List.replicate (opSize Config.pbits w v) (offering .encEmit) ++ rest))) = .next t ∧
      t.out = opEnc Config.pbits w v ∧ t.encState = .idle ∧ t.encRem = 0 ∧
      t.seen.emitted = (opEnc Config.pbits w v).getLast?.map (fun b => (b, true)) ∧
      t.decPart = s.decPart ∧ t.agenda = rest) ∧
    ∀ k, k < opSize Config.pbits w v → ∃ u, core.run (k + 1)
        (s.withAgenda (presenting (encode (instrOf .enc w v [])) ::
          (List.replicate k (offering .encEmit) ++ rest))) = .next u ∧
      u.encState = .run ∧ u.out = (opEnc Config.pbits w v).take k ∧
      (0 < k → ∃ b, u.seen.emitted = some (b, false))

/-! ## DEC -/

/-- 42_decode.md R100, the closed form of the loop. For an input that ends before a terminator and before 10 bytes it rests on
decision D8 of the spec (92_eei_decisions.md; log entry 7), for bits above 63 on D9 (log entry 8). -/
def Obligations.DecodeLoopIsTheClosedForm : Prop :=
  ∀ input : List Byte, dec64 input = (orGroups input (closedCount input), closedCount input)

/-- 42_decode.md section 1 (meaning of the count): the count is the number of bytes consumed. At the step level, of any number of
bytes offered after a `DEC.w` command exactly that many are taken. At the operation level, the bytes it counts all have bit 7 set
but the last, the decode stops there on a terminator, on the cap or on the end of the input, and the value is theirs alone. It is
at most the input length and at most 10, 0 for the empty input only, the size of the value for a canonical input and larger than
that for an over-long one. For short inputs this rests on decision D8 (log entry 7). -/
def Obligations.CountIsTheBytesConsumed : Prop :=
  (∀ input : List Byte, (dec64 input).2 ≤ input.length ∧ (dec64 input).2 ≤ 10 ∧ ((dec64 input).2 = 0 ↔ input = [])) ∧
  (∀ (s : State) (w : Width) (input : List Byte) (k : Nat), s.decState ≠ .run →
    (play s (presenting (encode (instrOf .dec w 0 input)) :: List.replicate k (offering .decByte))).decCnt.val =
      min k (dec64 input).2) ∧
  (∀ input : List Byte, (∀ b ∈ input.take ((dec64 input).2 - 1), continues b = true) ∧
    ((∃ b, input[(dec64 input).2 - 1]? = some b ∧ continues b = false) ∨ (dec64 input).2 = 10 ∨
      (dec64 input).2 = input.length) ∧
    dec64 (input.take (dec64 input).2) = dec64 input) ∧
  (∀ v : Val, (dec64 (enc64 v)).2 = size64 (dec64 (enc64 v)).1) ∧
  ∀ input : List Byte, OverLong input → size64 (dec64 input).1 < (dec64 input).2

/-- 42_decode.md R104 and R105, by decision D8 of the spec (92_eei_decisions.md; log entry 7): an unterminated input of fewer
than 10 bytes gives the value accumulated and the count of the bytes there were; the empty input, and it alone, gives count 0. -/
def Obligations.ShortInputByDecisionD8 : Prop :=
  (∀ input : List Byte, input.length < 10 → (∀ b ∈ input, continues b = true) →
    dec64 input = (orGroups input input.length, input.length)) ∧
  dec64 [0x80#8, 0x80#8] = (0, 2) ∧ dec64 [0xFF#8, 0xFF#8, 0xFF#8] = (0x1FFFFF, 3) ∧
  dec64 [] = (0, 0) ∧ ∀ input : List Byte, (dec64 input).2 = 0 ↔ input = []

/-- 42_decode.md R101 (event K) and 43_width_adapters.md R130: ten continuation bytes stop every width at count 10, whatever
follows; and no width changes the count of any input. -/
def Obligations.CapIsTenAtEveryWidth : Prop :=
  (∀ (p : Nat) (w : Width) (input : List Byte), 10 ≤ input.length → (∀ b ∈ input.take 10, continues b = true) →
    (opDec p w input).2 = 10) ∧
  ∀ (p : Nat) (w w' : Width) (input : List Byte), (opDec p w input).2 = (opDec p w' input).2

/-- The bits beyond 64 (42_decode.md section 1, by decision D9 of the spec; log entry 8) and the tenth byte (30_encoding.md section
2 and 20_memory.md section 2, which the spec marks derived): in tenth place only bit 0 of the byte matters, at value bit 63; its
bit 7 and the bytes after it do not; the groups before it lose nothing. -/
def Obligations.TenthByteOnlyBitZeroCounts : Prop :=
  (∀ (n : Nat) (b : Byte), n < 9 → (placeGroup n b).toNat = (groupOf b).toNat * 2 ^ (7 * n)) ∧
  (∀ b : Byte, placeGroup 9 b = if b.getLsbD 0 then BitVec.ofNat 64 (2 ^ 63) else 0) ∧
  ∀ (pre : List Byte) (b b' : Byte) (x x' : List Byte), pre.length = 9 → (∀ c ∈ pre, continues c = true) →
    b.getLsbD 0 = b'.getLsbD 0 →
    dec64 (pre ++ b :: x) = dec64 (pre ++ b' :: x') ∧ (dec64 (pre ++ b :: x)).2 = 10 ∧
    (dec64 (pre ++ b :: x)).1.getLsbD 63 = b.getLsbD 0

/-- 20_memory.md R32, 95_test_vectors.md section 6 law 5: bytes after a stop by terminator or cap do not influence the result. -/
def Obligations.BytesAfterTheStopDoNotCount : Prop :=
  ∀ input x : List Byte, (Terminated input ∨ 10 ≤ input.length) → dec64 (input ++ x) = dec64 input

/-- 42_decode.md R106: the round trip at 64 bits, with any bytes appended; and the converse fails. -/
def Obligations.DecodeOfEncodeIsTheValue : Prop :=
  (∀ (v : Val) (x : List Byte), dec64 (enc64 v ++ x) = (v, size64 v)) ∧
  ∃ input : List Byte, enc64 (dec64 input).1 ≠ input.take (dec64 input).2

/-- 43_width_adapters.md section 2 (round trip per width), for every PBITS; across two widths it holds exactly when the value fits
the decoding width (a remark the spec marks derived), as in `DEC.W8(ENC.W16(300)) = (0x2C, 2)`. -/
def Obligations.RoundTripAtEveryWidth : Prop :=
  (∀ (p : Nat) (w : Width) (v : Val), 1 ≤ p → p ≤ 64 → v.toNat < 2 ^ widthBits p w →
    opDec p w (opEnc p w v) = (v, opSize p w v)) ∧
  (∀ (p : Nat) (w w' : Width) (v : Val), 1 ≤ p → p ≤ 64 → v.toNat < 2 ^ widthBits p w →
    (opDec p w' (opEnc p w v)).2 = opSize p w v ∧
    ((opDec p w' (opEnc p w v)).1 = v ↔ v.toNat < 2 ^ widthBits p w')) ∧
  ∀ p : Nat, opDec p .w8 (opEnc p .w16 300) = (0x2C, 2)

/-- 43_width_adapters.md R126 and R127: widening is exact, narrowing is modulo `2^W`; both are the identity at 64 bits and the
count is not narrowed. -/
def Obligations.AdaptersAreModTwoToTheWidth : Prop :=
  ∀ (p : Nat) (w : Width) (v : Val) (input : List Byte), 1 ≤ p → p ≤ 64 →
    (widen (widthBits p w) v).toNat = v.toNat % 2 ^ widthBits p w ∧
    (v.toNat < 2 ^ widthBits p w → widen (widthBits p w) v = v) ∧
    (narrow (widthBits p w) v).toNat = v.toNat % 2 ^ widthBits p w ∧
    widen 64 v = v ∧ narrow 64 v = v ∧
    (opDec p w input).1.toNat = (dec64 input).1.toNat % 2 ^ widthBits p w ∧ (opDec p w input).2 = (dec64 input).2

/-- 42_decode.md R107 to R109 and R111: the result per width, the word that selects it, and the corner cases and examples those
rules list. Of `DEC.W64` (section 2) the word, the result and the example; its corner cases are `DecodeW64CornerCases`. -/
def Obligations.DecodeOutputsPerWidth : Prop :=
  ∀ (p : Nat) (v : Val) (x : List Byte), 1 ≤ p → p ≤ 64 →
    (decode ⟨0b10000#5, v, x⟩ = .ok (.decW8 x) ∧
      opDec p .w8 x = (BitVec.ofNat 64 ((dec64 x).1.toNat % 2 ^ 8), (dec64 x).2) ∧
      opDec p .w8 [0xFF#8, 0x03#8] = (0xFF, 2) ∧ opDec p .w8 [0x80#8, 0x02#8] = (0x00, 2) ∧
      opDec p .w8 (List.replicate 10 0xFF#8) = (0xFF, 10) ∧ opDec p .w8 [0xFF#8, 0x01#8] = (0xFF, 2)) ∧
    (decode ⟨0b10001#5, v, x⟩ = .ok (.decW16 x) ∧
      opDec p .w16 x = (BitVec.ofNat 64 ((dec64 x).1.toNat % 2 ^ 16), (dec64 x).2) ∧
      opDec p .w16 [0xFF#8, 0xFF#8, 0x03#8] = (0xFFFF, 3) ∧ opDec p .w16 [0xFF#8, 0xFF#8, 0x07#8] = (0xFFFF, 3) ∧
      opDec p .w16 [0xE5#8, 0x8E#8, 0x26#8] = (0x8765, 3) ∧ opDec p .w16 [0xAC#8, 0x02#8] = (300, 2)) ∧
    (decode ⟨0b10010#5, v, x⟩ = .ok (.decW32 x) ∧
      opDec p .w32 x = (BitVec.ofNat 64 ((dec64 x).1.toNat % 2 ^ 32), (dec64 x).2) ∧
      opDec p .w32 [0xFF#8, 0xFF#8, 0xFF#8, 0xFF#8, 0x0F#8] = (0xFFFFFFFF, 5) ∧
      opDec p .w32 [0xFF#8, 0xFF#8, 0xFF#8, 0xFF#8, 0x1F#8] = (0xFFFFFFFF, 5) ∧
      opDec p .w32 (List.replicate 10 0xFF#8) = (0xFFFFFFFF, 10) ∧
      opDec p .w32 [0xEF#8, 0xFD#8, 0xB6#8, 0xF5#8, 0x0D#8] = (0xDEADBEEF, 5)) ∧
    (decode ⟨0b10011#5, v, x⟩ = .ok (.decW64 x) ∧ opDec p .w64 x = dec64 x ∧
      opDec p .w64 (List.replicate 9 0xFF#8 ++ [0x01#8]) = (0xFFFFFFFFFFFFFFFF, 10)) ∧
    (decode ⟨0b10100#5, v, x⟩ = .ok (.decWP x) ∧
      opDec p .wp x = (BitVec.ofNat 64 ((dec64 x).1.toNat % 2 ^ p), (dec64 x).2) ∧
      opDec 64 .wp x = opDec 64 .w64 x ∧ opDec 32 .wp x = opDec 32 .w32 x ∧ opDec 64 .wp [0x80#8, 0x01#8] = (128, 2))

/-- The corner cases of `DEC.W64`: the table of 42_decode.md section 1 of inputs the encoder never produces, row by row, which the
spec marks derived. The rows with a tenth group above 1 rest on its decision D9 (log entry 8), the last three, input exhausted, on
D8 (log entry 7). -/
def Obligations.DecodeW64CornerCases : Prop :=
  ∀ p : Nat,
    opDec p .w64 [0x80#8, 0x00#8] = (0, 2) ∧
    opDec p .w64 [0x81#8, 0x80#8, 0x80#8, 0x00#8] = (1, 4) ∧
    opDec p .w64 [0x7F#8, 0x80#8] = (0x7F, 1) ∧
    opDec p .w64 (List.replicate 10 0x80#8) = (0, 10) ∧
    opDec p .w64 (List.replicate 10 0xFF#8) = (0xFFFFFFFFFFFFFFFF, 10) ∧
    opDec p .w64 (List.replicate 11 0xFF#8) = (0xFFFFFFFFFFFFFFFF, 10) ∧
    opDec p .w64 (List.replicate 9 0x80#8 ++ [0x7F#8]) = (0x8000000000000000, 10) ∧
    opDec p .w64 (List.replicate 9 0x80#8 ++ [0x02#8]) = (0, 10) ∧
    opDec p .w64 (List.replicate 9 0x80#8) = (0, 9) ∧
    opDec p .w64 [0x80#8] = (0, 1) ∧
    opDec p .w64 [] = (0, 0)

/-- 42_decode.md R121: in RUN, under the invariant of R23, merging a group by OR, by addition and by exclusive OR is the same. -/
def Obligations.MergeIsAddition : Prop :=
  ∀ (s : State) (b : Byte), s.decState = .run → DecInv s →
    mergeGroup s.decAcc s.decCnt.val b = s.decAcc + placeGroup s.decCnt.val b ∧
    mergeGroup s.decAcc s.decCnt.val b = s.decAcc ^^^ placeGroup s.decCnt.val b

/-- 42_decode.md R112: `DEC_START` of the five operations. In IDLE or DONE it clears the accumulator and the count, latches the
width and fixes `In`, and changes nothing else; in RUN the step does not exist. -/
def Obligations.DecodeStartClearsAndLatches : Prop :=
  (∀ (x : List Byte) (s : State), s.decState = .idle ∨ s.decState = .done →
    exec (.decW8 x) s = .next { s with decState := .run, decAcc := 0, decCnt := 0, decW := .w8, inp := x } ∧
    exec (.decW16 x) s = .next { s with decState := .run, decAcc := 0, decCnt := 0, decW := .w16, inp := x } ∧
    exec (.decW32 x) s = .next { s with decState := .run, decAcc := 0, decCnt := 0, decW := .w32, inp := x } ∧
    exec (.decW64 x) s = .next { s with decState := .run, decAcc := 0, decCnt := 0, decW := .w64, inp := x } ∧
    exec (.decWP x) s = .next { s with decState := .run, decAcc := 0, decCnt := 0, decW := .wp, inp := x }) ∧
  ∀ (x : List Byte) (s : State), s.decState = .run →
    exec (.decW8 x) s = .refused .decBusy ∧ exec (.decW16 x) s = .refused .decBusy ∧
    exec (.decW32 x) s = .refused .decBusy ∧ exec (.decW64 x) s = .refused .decBusy ∧
    exec (.decWP x) s = .refused .decBusy

/-- 42_decode.md R113: `DEC_BYTE` in RUN with a byte left (and the count below 10, as R23 item 4 has it of every reachable
state). The group lands at bit `7 * dec_cnt`, the count goes up by 1, and the decode stops on a terminator or at 10 bytes;
nothing else changes. -/
def Obligations.DecodeByteMergesOneGroup : Prop :=
  ∀ (s : State) (b : Byte), s.decState = .run → s.inp[s.decCnt.val]? = some b → s.decCnt.val < 10 →
    ∃ t, decByte s = .next t ∧
      t.decAcc = s.decAcc ||| BitVec.ofNat 64 (b.toNat % 128 * 2 ^ (7 * s.decCnt.val)) ∧
      t.decCnt.val = s.decCnt.val + 1 ∧
      t.decState = (if b.toNat < 128 ∨ s.decCnt.val + 1 = 10 then .done else .run) ∧
      t.decW = s.decW ∧ t.inp = s.inp ∧ t.encPart = s.encPart ∧ t.seen = s.seen ∧ t.agenda = s.agenda

/-- 42_decode.md R114: `DEC_END` in RUN with every byte consumed only sets DONE; with a byte left, or in IDLE or DONE, the step
does not exist. Under the invariant it exists only for an input of at most 9 bytes, all with bit 7 set; and for the empty input it
is the only step after the start. -/
def Obligations.DecodeEndOnlyAtTheEnd : Prop :=
  (∀ s : State,
    (s.decState = .run → s.decCnt.val = s.inp.length → decEnd s = .next { s with decState := .done }) ∧
    (s.decState = .run → s.decCnt.val ≠ s.inp.length → decEnd s = .refused .notAtEnd) ∧
    (s.decState = .idle ∨ s.decState = .done → decEnd s = .refused .decNotRunning)) ∧
  (∀ s t : State, DecInv s → decEnd s = .next t → s.inp.length ≤ 9 ∧ ∀ b ∈ s.inp, continues b = true) ∧
  ∀ (s : State) (w : Width), decByte (s.loadDecoder w []) = .refused .noByteLeft ∧
    decEnd (s.loadDecoder w []) = .next (s.loadDecoder w []).finishDecode

/-- 42_decode.md R116: `in_ready` is RUN, and outside RUN neither a byte nor the end mark is accepted; nothing changes. -/
def Obligations.InputAcceptedOnlyInRun : Prop :=
  ∀ (s : State) (m : Move) (rest : List Moment), (s.inReady = true ↔ s.decState = .run) ∧
    (s.decState = .idle ∨ s.decState = .done → (m = .decByte ∨ m = .decEnd) → s.agenda = offering m :: rest →
      step s = .refused .decNotRunning ∧ settle s = s.withAgenda rest)

/-- 42_decode.md R115: the result read in DONE gives the accumulator narrowed by the latched width, zero above it, and the count,
and changes no register; outside DONE the step does not exist; and repeated later, after whatever HOST does but a `DEC.w` command
or `RESET`, it gives the same answer. -/
def Obligations.ResultReadOnlyInDone : Prop :=
  (∀ s : State,
    (s.decState = .done →
      decResult s = .next { s with seen := { s.seen with
        result := some (BitVec.ofNat 64 (s.decAcc.toNat % 2 ^ widthBits Config.pbits s.decW),
          BitVec.ofNat 4 s.decCnt.val) } }) ∧
    (s.decState = .idle ∨ s.decState = .run → decResult s = .refused .resultNotReady)) ∧
  ∀ (s : State) (ms : List Moment), s.decState = .done →
    (∀ m ∈ ms, m.reset = false ∧ ∀ c, m.move = some (.command c) → opField c.cmd ≠ 0b10#2) →
    ∃ t u, decResult s = .next t ∧ decResult (play s ms) = .next u ∧ u.seen.result = t.seen.result

/-- 10_state.md R19, 42_decode.md R115: the result ports hold from DONE on, whatever HOST does, until a `DEC.w` command or
`RESET`. -/
def Obligations.ResultHoldsUntilTheNextStart : Prop :=
  ∀ (s : State) (ms : List Moment), s.decState = .done →
    (∀ m ∈ ms, m.reset = false ∧ ∀ c, m.move = some (.command c) → opField c.cmd ≠ 0b10#2) →
    (play s ms).decState = .done ∧ (play s ms).decValue = s.decValue ∧ (play s ms).decCount = s.decCount

/-- 42_decode.md R117: from a state in RUN that meets the invariant of R23, the decoder is in DONE after at most 10 byte steps,
or after at most 9 and one end mark. -/
def Obligations.DecodeEndsWithinTenBytes : Prop :=
  ∀ s : State, s.decState = .run → DecInv s → ∃ k e, k ≤ 10 ∧ e ≤ 1 ∧ 1 ≤ k + e ∧ (e = 1 → k ≤ 9) ∧
    (play s (List.replicate k (offering .decByte) ++ List.replicate e (offering .decEnd))).decState = .done

/-- 20_memory.md R31, 42_decode.md R119: in RUN, under the invariant, exactly one of a byte and the end mark is on offer, the
step of that one is accepted and the other is refused: the run is unique. -/
def Obligations.ByteOrEndButNotBoth : Prop :=
  ∀ s : State, s.decState = .run → DecInv s →
    (s.inValid = true ∧ s.inEnd = false ∧ (∃ t, decByte s = .next t) ∧ decEnd s = .refused .notAtEnd) ∨
    (s.inValid = false ∧ s.inEnd = true ∧ decByte s = .refused .noByteLeft ∧ ∃ t, decEnd s = .next t)

/-- 42_decode.md R119, the agreement of the levels for DEC: from IDLE or DONE, the command, exactly `count` byte steps, one end
mark exactly when no terminator and no cap stopped it (decision D8, log entry 7), and the result read are all accepted, and
HOST reads `DEC.w(In)` as Level O gives it; ENC is untouched. -/
def Obligations.DecoderRealisesDecode : Prop :=
  ∀ (s : State) (w : Width) (x : List Byte) (rest : List Moment) (e : Nat), s.decState = .idle ∨ s.decState = .done →
    (e = 0 ∧ (Terminated x ∨ 10 ≤ x.length) ∨ e = 1 ∧ ¬ (Terminated x ∨ 10 ≤ x.length)) →
    ∃ t, core.run ((dec64 x).2 + e + 2)
        (s.withAgenda (presenting (encode (instrOf .dec w 0 x)) ::
          (List.replicate (dec64 x).2 (offering .decByte) ++
            (List.replicate e (offering .decEnd) ++ offering .readResult :: rest)))) = .next t ∧
      t.decState = .done ∧
      t.seen.result = some ((opDec Config.pbits w x).1, BitVec.ofNat 4 (opDec Config.pbits w x).2) ∧
      t.decCnt.val = (opDec Config.pbits w x).2 ∧ t.encPart = s.encPart ∧ t.agenda = rest

/-- 60_exceptions.md R147, 42_decode.md R118: the test that the decode ended on a terminator. -/
def Obligations.TerminatorTestIsRight : Prop :=
  ∀ input : List Byte, Terminated input ↔
    1 ≤ (dec64 input).2 ∧ ∃ b, input[(dec64 input).2 - 1]? = some b ∧ continues b = false

/-- 60_exceptions.md R147: the test that an input was canonical says exactly that the consumed bytes are the encoding of the
value. -/
def Obligations.CanonicalTestIsRight : Prop :=
  ∀ input : List Byte, canonicalTest input (dec64 input).2 ↔ input.take (dec64 input).2 = enc64 (dec64 input).1

/-- 60_exceptions.md section 8 (which the spec marks derived), the other recipes: no terminator, stopped by the cap without one,
bits lost in the tenth group, and a value that does not fit the width. The first speaks of the count of short and empty inputs and
rests on decision D8 of the spec (log entry 7), the third on D9 (log entry 8). -/
def Obligations.RecipesAreRight : Prop :=
  ∀ input : List Byte,
    (¬ Terminated input ↔ (dec64 input).2 = 0 ∨ ∃ b, input[(dec64 input).2 - 1]? = some b ∧ continues b = true) ∧
    ((10 ≤ input.length ∧ ∀ b ∈ input.take 10, continues b = true) ↔
      (dec64 input).2 = 10 ∧ ∃ b, input[9]? = some b ∧ continues b = true) ∧
    ((dec64 input).1.toNat ≠ exactSum input (dec64 input).2 ↔
      (dec64 input).2 = 10 ∧ ∃ b, input[9]? = some b ∧ b.extractLsb' 1 6 ≠ 0) ∧
    ∀ (p : Nat) (w : Width), 1 ≤ p → p ≤ 64 →
      ((opDec p w input).1 ≠ (dec64 input).1 ↔ ∃ j, widthBits p w ≤ j ∧ (dec64 input).1.getLsbD j = true)

/-! ## The whole machine -/

/-- 70_reset_and_hazards.md R154: a start command to a unit in RUN is refused and changes nothing, in the unit or elsewhere. -/
def Obligations.BusyUnitRefusesTheStart : Prop :=
  ∀ (s : State) (c : Command) (rest : List Moment), s.agenda = presenting c :: rest → c.wellFormed = true →
    (opField c.cmd = 0b01#2 → s.encState = .run → step s = .refused .encBusy ∧ settle s = s.withAgenda rest) ∧
    (opField c.cmd = 0b10#2 → s.decState = .run → step s = .refused .decBusy ∧ settle s = s.withAgenda rest)

/-- 10_state.md R13, R14, R18: the status levels are what HOST reads, in every state, and reading them changes no register. -/
def Obligations.StatusLevelsFollowThePhases : Prop :=
  ∀ s : State, ∃ l : Status, readStatus s = .next { s with seen := { s.seen with status := some l } } ∧
    (l.encBusy = true ↔ s.encState = .run) ∧ (l.decBusy = true ↔ s.decState = .run) ∧
    (l.decDone = true ↔ s.decState = .done)

/-- 10_state.md R23 holds at reset. -/
def Obligations.InvariantHoldsAtReset : Prop := State.reset.Inv

/-- 10_state.md R23: every step from a state that meets the invariant leads to one that meets it. -/
def Obligations.InvariantKeptByEveryStep : Prop := ∀ s t : State, s.Inv → step s = .next t → t.Inv

/-- 60_exceptions.md R135: nothing faults. Under the invariant no step does; and in any state the only fault is the stuck one of
93_implementation_defined.md U11, a byte offered with the count at 10 (log entry 6). -/
def Obligations.NoStepFaults : Prop :=
  (∀ s : State, s.Inv → NoFault (step s)) ∧
  ∀ (s : State) (f : Fault), step s = .fault f → s.decState = .run ∧ s.decCnt.val = 10

/-- 10_state.md R11 to R16, R20: who writes what. Outside `RESET`, a register of ENC or `Out` changes only by an encoder move, one
of DEC or `In` only by a decoder move; `dec_w` and `In` change only by a `DEC.w` command; only `RESET` leads DEC to IDLE. -/
def Obligations.RegistersHaveTheirWritersOnly : Prop :=
  ∀ (s t : State) (m : Moment) (rest : List Moment), s.agenda = m :: rest → m.reset = false → step s = .next t →
    (m.forEnc = false → t.encPart = s.encPart) ∧ (m.forDec = false → t.decPart = s.decPart) ∧
    ((∀ c, m.move ≠ some (.command c)) → t.decW = s.decW ∧ t.inp = s.inp) ∧
    (m.move = some .readResult ∨ m.move = some .readStatus →
      { t with seen := s.seen } = s.withAgenda rest) ∧
    (s.decState ≠ .idle → t.decState ≠ .idle) ∧ t.agenda = rest

/-- 10_state.md R26, 41_encode.md R92: whatever else HOST does in between, accepted or refused, the encoder ends as if only the
moments that are its own (its moves and `RESET`) had been offered. -/
def Obligations.EncoderIsIsolated : Prop :=
  ∀ (s : State) (ms : List Moment), (play s ms).encPart = (play s (ms.filter Moment.forEnc)).encPart

/-- 10_state.md R26, 42_decode.md R119: the same of the decoder. -/
def Obligations.DecoderIsIsolated : Prop :=
  ∀ (s : State) (ms : List Moment), (play s ms).decPart = (play s (ms.filter Moment.forDec)).decPart

/-- 20_memory.md R40 item 4, 00_scope.md R7: a move of ENC and a move of DEC give the same state in either order. -/
def Obligations.UnitMovesCommute : Prop :=
  ∀ (s : State) (a b : Move), a.forEnc = true → b.forDec = true →
    play s [offering a, offering b] = play s [offering b, offering a]

/-- 10_state.md R25: the result of an `ENC.w` or `DEC.w` does not depend on what the block did before: two states, whatever their
registers hold, that each accept the command and the same moments of that unit end with the same `Out`, or the same decoder registers. -/
def Obligations.ResultsDoNotDependOnHistory : Prop :=
  ∀ (s t : State) (w : Width) (v : Val) (x : List Byte) (n e : Nat),
    (s.encState = .idle → t.encState = .idle →
      (play s (presenting (encode (instrOf .enc w v [])) :: List.replicate n (offering .encEmit))).out =
      (play t (presenting (encode (instrOf .enc w v [])) :: List.replicate n (offering .encEmit))).out) ∧
    (s.decState ≠ .run → t.decState ≠ .run →
      { (play s (presenting (encode (instrOf .dec w v x)) ::
          (List.replicate n (offering .decByte) ++ List.replicate e (offering .decEnd)))).decPart with result := none } =
      { (play t (presenting (encode (instrOf .dec w v x)) ::
          (List.replicate n (offering .decByte) ++ List.replicate e (offering .decEnd)))).decPart with result := none })

/-- 70_reset_and_hazards.md R152: under the invariant, what an encode in RUN has emitted is a proper prefix of a full encoding,
every byte with bit 7 set; so an encode abandoned by `RESET` leaves HOST no valid encoding. -/
def Obligations.PartialOutputIsNoEncoding : Prop :=
  ∀ s : State, EncInv s → s.encState = .run →
    (∃ v : Val, s.out <+: enc64 v ∧ s.out.length < (enc64 v).length) ∧ (∀ b ∈ s.out, continues b = true) ∧
    ∀ v : Val, s.out ≠ enc64 v
end

