-- ==== Sys2Proof/Laws/Codec.lean ====
section
/-! SUPPORT. The small lemmas of a byte's two fields (30_encoding.md R45) and of the loops. -/

namespace Sys2Proof.Machine

@[simp] theorem continues_byteOf (c : Bool) (g : BitVec 7) : continues (byteOf c g) = c := by
  cases c <;> revert g <;> decide

@[simp] theorem groupOf_byteOf (c : Bool) (g : BitVec 7) : groupOf (byteOf c g) = g := by
  cases c <;> revert g <;> decide

theorem byteOf_continues_groupOf (b : Byte) : byteOf (continues b) (groupOf b) = b := by
  revert b; decide

@[simp] theorem continues_emitByte (r : Val) : continues (emitByte r) = moreFollows r := continues_byteOf _ _

@[simp] theorem groupOf_emitByte (r : Val) : groupOf (emitByte r) = lowGroup r := groupOf_byteOf _ _

@[simp] theorem decodeLoop_nil (acc : Val) (n : Nat) : decodeLoop acc n [] = (acc, n) := rfl

theorem decodeLoop_cons (acc : Val) (n : Nat) (b : Byte) (rest : List Byte) : decodeLoop acc n (b :: rest) =
    if stopsAfter n b then (mergeGroup acc n b, n + 1) else decodeLoop (mergeGroup acc n b) (n + 1) rest := rfl

end Sys2Proof.Machine
end

