-- ==== Sys2Proof/Laws/Config.lean ====
section
/-! SUPPORT. The fixed parameters as numbers (00_scope.md R4), and all that is known of PBITS: it lies between 1 and 64 (R5). -/

namespace Sys2Proof

theorem Config.one_le_pbits : 1 ≤ Config.pbits := Nat.le_add_left 1 _

@[simp] theorem Config.groupBits_eq : Config.groupBits = 7 := rfl

@[simp] theorem Config.capGroups_eq : Config.capGroups = 10 := rfl

@[simp] theorem Config.maxEncBytes_eq : Config.maxEncBytes = 10 := rfl

theorem Config.pbits_le : Config.pbits ≤ 64 := Config.pbitsLessOne.isLt

end Sys2Proof
end

