-- ==== Sys2Proof/Laws/Core.lean ====
section
/-! SUPPORT. Runs of several steps, one accepted step at a time. -/

namespace Sys2Proof.Machine

/-- Of any machine: an accepted step shortens the run by one. -/
theorem run_next (M : Host.Core) (n : Nat) (s t : M.State) (h : M.step s = .next t) : M.run (n + 1) s = M.run n t := by
  simp [Host.Core.run, h]

/-- The same of this machine. -/
theorem core_run_next {s t : State} (n : Nat) (h : step s = .next t) : core.run (n + 1) s = core.run n t :=
  run_next core n s t h

theorem core_run_zero (s : State) : core.run 0 s = .next s := rfl

end Sys2Proof.Machine
end

