-- ==== Sys2Proof/Laws/Decode.lean ====
section
/-! SUPPORT. The small lemmas of the command word's fields and codes (30_encoding.md R54 to R57). -/

namespace Sys2Proof

/-- An `op` value selects a kind exactly when it is that kind's code (R55). -/
theorem kindOf_eq_some {op : BitVec 2} {k : Kind} : kindOf op = some k ↔ op = k.code := by
  revert op; cases k <;> decide

/-- A `wsel` value selects a width exactly when it is that width's code (R56). -/
theorem widthOfCode_eq_some {wsel : BitVec 3} {w : Width} : widthOfCode wsel = some w ↔ wsel = w.code := by
  revert wsel; cases w <;> decide

/-- A word selects a kind and a width exactly when its two fields are their codes. -/
theorem selects_eq_ok {cmd : BitVec 5} {k : Kind} {w : Width} :
    selects cmd = .ok (k, w) ↔ opField cmd = k.code ∧ wselField cmd = w.code := by
  rw [← kindOf_eq_some, ← widthOfCode_eq_some]
  unfold selects
  cases kindOf (opField cmd) <;> cases widthOfCode (wselField cmd) <;> simp

/-- A command whose word selects a kind and a width decodes to that operation with its own operand lines. -/
theorem decode_of_selects {c : Command} {k : Kind} {w : Width} (h : selects c.cmd = .ok (k, w)) :
    decode c = .ok (instrOf k w c.val c.input) := by
  obtain ⟨cmd, val, input⟩ := c
  simp only at h
  simp only [decode, h]

/-- A command with a reserved word is rejected as its word is. -/
theorem decode_of_reserved {c : Command} {e : DecodeError} (h : selects c.cmd = .error e) : decode c = .error e := by
  obtain ⟨cmd, val, input⟩ := c
  simp only at h
  simp only [decode, h]

@[simp] theorem instrOf_kind (k : Kind) (w : Width) (v : Val) (x : List Byte) : (instrOf k w v x).kind = k := by
  cases k <;> cases w <;> rfl

@[simp] theorem instrOf_width (k : Kind) (w : Width) (v : Val) (x : List Byte) : (instrOf k w v x).width = w := by
  cases k <;> cases w <;> rfl

end Sys2Proof
end

