-- ==== Sys2Proof/Laws/State.lean ====
section
/-! SUPPORT. One lemma per field per update of State, so that no later proof unfolds a record update. -/

namespace Sys2Proof.Machine

@[simp] theorem State.withAgenda_encState (s : State) (ms : List Moment) : (s.withAgenda ms).encState = s.encState := rfl
@[simp] theorem State.withAgenda_encRem (s : State) (ms : List Moment) : (s.withAgenda ms).encRem = s.encRem := rfl
@[simp] theorem State.withAgenda_decState (s : State) (ms : List Moment) : (s.withAgenda ms).decState = s.decState := rfl
@[simp] theorem State.withAgenda_decAcc (s : State) (ms : List Moment) : (s.withAgenda ms).decAcc = s.decAcc := rfl
@[simp] theorem State.withAgenda_decCnt (s : State) (ms : List Moment) : (s.withAgenda ms).decCnt = s.decCnt := rfl
@[simp] theorem State.withAgenda_decW (s : State) (ms : List Moment) : (s.withAgenda ms).decW = s.decW := rfl
@[simp] theorem State.withAgenda_inp (s : State) (ms : List Moment) : (s.withAgenda ms).inp = s.inp := rfl
@[simp] theorem State.withAgenda_out (s : State) (ms : List Moment) : (s.withAgenda ms).out = s.out := rfl
@[simp] theorem State.withAgenda_seen (s : State) (ms : List Moment) : (s.withAgenda ms).seen = s.seen := rfl
@[simp] theorem State.withAgenda_agenda (s : State) (ms : List Moment) : (s.withAgenda ms).agenda = ms := rfl

@[simp] theorem State.sawSize_encState (s : State) (n : BitVec 4) : (s.sawSize n).encState = s.encState := rfl
@[simp] theorem State.sawSize_encRem (s : State) (n : BitVec 4) : (s.sawSize n).encRem = s.encRem := rfl
@[simp] theorem State.sawSize_decState (s : State) (n : BitVec 4) : (s.sawSize n).decState = s.decState := rfl
@[simp] theorem State.sawSize_decAcc (s : State) (n : BitVec 4) : (s.sawSize n).decAcc = s.decAcc := rfl
@[simp] theorem State.sawSize_decCnt (s : State) (n : BitVec 4) : (s.sawSize n).decCnt = s.decCnt := rfl
@[simp] theorem State.sawSize_decW (s : State) (n : BitVec 4) : (s.sawSize n).decW = s.decW := rfl
@[simp] theorem State.sawSize_inp (s : State) (n : BitVec 4) : (s.sawSize n).inp = s.inp := rfl
@[simp] theorem State.sawSize_out (s : State) (n : BitVec 4) : (s.sawSize n).out = s.out := rfl
@[simp] theorem State.sawSize_seen (s : State) (n : BitVec 4) : (s.sawSize n).seen = { s.seen with size := some n } := rfl
@[simp] theorem State.sawSize_agenda (s : State) (n : BitVec 4) : (s.sawSize n).agenda = s.agenda := rfl

@[simp] theorem State.sawResult_encState (s : State) (v : Val) (n : BitVec 4) : (s.sawResult v n).encState = s.encState := rfl
@[simp] theorem State.sawResult_encRem (s : State) (v : Val) (n : BitVec 4) : (s.sawResult v n).encRem = s.encRem := rfl
@[simp] theorem State.sawResult_decState (s : State) (v : Val) (n : BitVec 4) : (s.sawResult v n).decState = s.decState := rfl
@[simp] theorem State.sawResult_decAcc (s : State) (v : Val) (n : BitVec 4) : (s.sawResult v n).decAcc = s.decAcc := rfl
@[simp] theorem State.sawResult_decCnt (s : State) (v : Val) (n : BitVec 4) : (s.sawResult v n).decCnt = s.decCnt := rfl
@[simp] theorem State.sawResult_decW (s : State) (v : Val) (n : BitVec 4) : (s.sawResult v n).decW = s.decW := rfl
@[simp] theorem State.sawResult_inp (s : State) (v : Val) (n : BitVec 4) : (s.sawResult v n).inp = s.inp := rfl
@[simp] theorem State.sawResult_out (s : State) (v : Val) (n : BitVec 4) : (s.sawResult v n).out = s.out := rfl
@[simp] theorem State.sawResult_seen (s : State) (v : Val) (n : BitVec 4) : (s.sawResult v n).seen = { s.seen with result := some (v, n) } := rfl
@[simp] theorem State.sawResult_agenda (s : State) (v : Val) (n : BitVec 4) : (s.sawResult v n).agenda = s.agenda := rfl

@[simp] theorem State.sawStatus_encState (s : State) (l : Status) : (s.sawStatus l).encState = s.encState := rfl
@[simp] theorem State.sawStatus_encRem (s : State) (l : Status) : (s.sawStatus l).encRem = s.encRem := rfl
@[simp] theorem State.sawStatus_decState (s : State) (l : Status) : (s.sawStatus l).decState = s.decState := rfl
@[simp] theorem State.sawStatus_decAcc (s : State) (l : Status) : (s.sawStatus l).decAcc = s.decAcc := rfl
@[simp] theorem State.sawStatus_decCnt (s : State) (l : Status) : (s.sawStatus l).decCnt = s.decCnt := rfl
@[simp] theorem State.sawStatus_decW (s : State) (l : Status) : (s.sawStatus l).decW = s.decW := rfl
@[simp] theorem State.sawStatus_inp (s : State) (l : Status) : (s.sawStatus l).inp = s.inp := rfl
@[simp] theorem State.sawStatus_out (s : State) (l : Status) : (s.sawStatus l).out = s.out := rfl
@[simp] theorem State.sawStatus_seen (s : State) (l : Status) : (s.sawStatus l).seen = { s.seen with status := some l } := rfl
@[simp] theorem State.sawStatus_agenda (s : State) (l : Status) : (s.sawStatus l).agenda = s.agenda := rfl

@[simp] theorem State.loadEncoder_encState (s : State) (v : Val) : (s.loadEncoder v).encState = .run := rfl
@[simp] theorem State.loadEncoder_encRem (s : State) (v : Val) : (s.loadEncoder v).encRem = v := rfl
@[simp] theorem State.loadEncoder_decState (s : State) (v : Val) : (s.loadEncoder v).decState = s.decState := rfl
@[simp] theorem State.loadEncoder_decAcc (s : State) (v : Val) : (s.loadEncoder v).decAcc = s.decAcc := rfl
@[simp] theorem State.loadEncoder_decCnt (s : State) (v : Val) : (s.loadEncoder v).decCnt = s.decCnt := rfl
@[simp] theorem State.loadEncoder_decW (s : State) (v : Val) : (s.loadEncoder v).decW = s.decW := rfl
@[simp] theorem State.loadEncoder_inp (s : State) (v : Val) : (s.loadEncoder v).inp = s.inp := rfl
@[simp] theorem State.loadEncoder_out (s : State) (v : Val) : (s.loadEncoder v).out = [] := rfl
@[simp] theorem State.loadEncoder_seen (s : State) (v : Val) : (s.loadEncoder v).seen = s.seen := rfl
@[simp] theorem State.loadEncoder_agenda (s : State) (v : Val) : (s.loadEncoder v).agenda = s.agenda := rfl

@[simp] theorem State.emit_encState (s : State) (p : EncPhase) (r : Val) (b : Byte) : (s.emit p r b).encState = p := rfl
@[simp] theorem State.emit_encRem (s : State) (p : EncPhase) (r : Val) (b : Byte) : (s.emit p r b).encRem = r := rfl
@[simp] theorem State.emit_decState (s : State) (p : EncPhase) (r : Val) (b : Byte) : (s.emit p r b).decState = s.decState := rfl
@[simp] theorem State.emit_decAcc (s : State) (p : EncPhase) (r : Val) (b : Byte) : (s.emit p r b).decAcc = s.decAcc := rfl
@[simp] theorem State.emit_decCnt (s : State) (p : EncPhase) (r : Val) (b : Byte) : (s.emit p r b).decCnt = s.decCnt := rfl
@[simp] theorem State.emit_decW (s : State) (p : EncPhase) (r : Val) (b : Byte) : (s.emit p r b).decW = s.decW := rfl
@[simp] theorem State.emit_inp (s : State) (p : EncPhase) (r : Val) (b : Byte) : (s.emit p r b).inp = s.inp := rfl
@[simp] theorem State.emit_out (s : State) (p : EncPhase) (r : Val) (b : Byte) : (s.emit p r b).out = s.out ++ [b] := rfl
@[simp] theorem State.emit_seen (s : State) (p : EncPhase) (r : Val) (b : Byte) : (s.emit p r b).seen = { s.seen with emitted := some (b, outLast b) } := rfl
@[simp] theorem State.emit_agenda (s : State) (p : EncPhase) (r : Val) (b : Byte) : (s.emit p r b).agenda = s.agenda := rfl

@[simp] theorem State.loadDecoder_encState (s : State) (w : Width) (x : List Byte) : (s.loadDecoder w x).encState = s.encState := rfl
@[simp] theorem State.loadDecoder_encRem (s : State) (w : Width) (x : List Byte) : (s.loadDecoder w x).encRem = s.encRem := rfl
@[simp] theorem State.loadDecoder_decState (s : State) (w : Width) (x : List Byte) : (s.loadDecoder w x).decState = .run := rfl
@[simp] theorem State.loadDecoder_decAcc (s : State) (w : Width) (x : List Byte) : (s.loadDecoder w x).decAcc = 0 := rfl
@[simp] theorem State.loadDecoder_decCnt (s : State) (w : Width) (x : List Byte) : (s.loadDecoder w x).decCnt = 0 := rfl
@[simp] theorem State.loadDecoder_decW (s : State) (w : Width) (x : List Byte) : (s.loadDecoder w x).decW = w := rfl
@[simp] theorem State.loadDecoder_inp (s : State) (w : Width) (x : List Byte) : (s.loadDecoder w x).inp = x := rfl
@[simp] theorem State.loadDecoder_out (s : State) (w : Width) (x : List Byte) : (s.loadDecoder w x).out = s.out := rfl
@[simp] theorem State.loadDecoder_seen (s : State) (w : Width) (x : List Byte) : (s.loadDecoder w x).seen = s.seen := rfl
@[simp] theorem State.loadDecoder_agenda (s : State) (w : Width) (x : List Byte) : (s.loadDecoder w x).agenda = s.agenda := rfl

@[simp] theorem State.consume_encState (s : State) (p : DecPhase) (a : Val) (n : Fin (Config.capGroups + 1)) : (s.consume p a n).encState = s.encState := rfl
@[simp] theorem State.consume_encRem (s : State) (p : DecPhase) (a : Val) (n : Fin (Config.capGroups + 1)) : (s.consume p a n).encRem = s.encRem := rfl
@[simp] theorem State.consume_decState (s : State) (p : DecPhase) (a : Val) (n : Fin (Config.capGroups + 1)) : (s.consume p a n).decState = p := rfl
@[simp] theorem State.consume_decAcc (s : State) (p : DecPhase) (a : Val) (n : Fin (Config.capGroups + 1)) : (s.consume p a n).decAcc = a := rfl
@[simp] theorem State.consume_decCnt (s : State) (p : DecPhase) (a : Val) (n : Fin (Config.capGroups + 1)) : (s.consume p a n).decCnt = n := rfl
@[simp] theorem State.consume_decW (s : State) (p : DecPhase) (a : Val) (n : Fin (Config.capGroups + 1)) : (s.consume p a n).decW = s.decW := rfl
@[simp] theorem State.consume_inp (s : State) (p : DecPhase) (a : Val) (n : Fin (Config.capGroups + 1)) : (s.consume p a n).inp = s.inp := rfl
@[simp] theorem State.consume_out (s : State) (p : DecPhase) (a : Val) (n : Fin (Config.capGroups + 1)) : (s.consume p a n).out = s.out := rfl
@[simp] theorem State.consume_seen (s : State) (p : DecPhase) (a : Val) (n : Fin (Config.capGroups + 1)) : (s.consume p a n).seen = s.seen := rfl
@[simp] theorem State.consume_agenda (s : State) (p : DecPhase) (a : Val) (n : Fin (Config.capGroups + 1)) : (s.consume p a n).agenda = s.agenda := rfl

@[simp] theorem State.finishDecode_encState (s : State) : s.finishDecode.encState = s.encState := rfl
@[simp] theorem State.finishDecode_encRem (s : State) : s.finishDecode.encRem = s.encRem := rfl
@[simp] theorem State.finishDecode_decState (s : State) : s.finishDecode.decState = .done := rfl
@[simp] theorem State.finishDecode_decAcc (s : State) : s.finishDecode.decAcc = s.decAcc := rfl
@[simp] theorem State.finishDecode_decCnt (s : State) : s.finishDecode.decCnt = s.decCnt := rfl
@[simp] theorem State.finishDecode_decW (s : State) : s.finishDecode.decW = s.decW := rfl
@[simp] theorem State.finishDecode_inp (s : State) : s.finishDecode.inp = s.inp := rfl
@[simp] theorem State.finishDecode_out (s : State) : s.finishDecode.out = s.out := rfl
@[simp] theorem State.finishDecode_seen (s : State) : s.finishDecode.seen = s.seen := rfl
@[simp] theorem State.finishDecode_agenda (s : State) : s.finishDecode.agenda = s.agenda := rfl

@[simp] theorem State.dropMoment_encState (s : State) : s.dropMoment.encState = s.encState := rfl
@[simp] theorem State.dropMoment_encRem (s : State) : s.dropMoment.encRem = s.encRem := rfl
@[simp] theorem State.dropMoment_decState (s : State) : s.dropMoment.decState = s.decState := rfl
@[simp] theorem State.dropMoment_decAcc (s : State) : s.dropMoment.decAcc = s.decAcc := rfl
@[simp] theorem State.dropMoment_decCnt (s : State) : s.dropMoment.decCnt = s.decCnt := rfl
@[simp] theorem State.dropMoment_decW (s : State) : s.dropMoment.decW = s.decW := rfl
@[simp] theorem State.dropMoment_inp (s : State) : s.dropMoment.inp = s.inp := rfl
@[simp] theorem State.dropMoment_out (s : State) : s.dropMoment.out = s.out := rfl
@[simp] theorem State.dropMoment_seen (s : State) : s.dropMoment.seen = s.seen := rfl
@[simp] theorem State.dropMoment_agenda (s : State) : s.dropMoment.agenda = s.agenda.tail := rfl

@[simp] theorem State.withAgenda_self (s : State) : s.withAgenda s.agenda = s := rfl
@[simp] theorem State.withAgenda_withAgenda (s : State) (a b : List Moment) : (s.withAgenda a).withAgenda b = s.withAgenda b := rfl

end Sys2Proof.Machine
end

