-- ==== Sys2Proof/Laws/Ops.lean ====
section
/-! SUPPORT. One lemma per shared operation that says once everything it can do; the provers cite these and unfold no step. -/

namespace Sys2Proof.Machine

variable {s t : State}

/-! ## The steps of Level S -/

theorem sizeEval_eq (w : Width) (v : Val) (s : State) : sizeEval w v s = .next (s.sawSize (sizeOut w v)) := rfl

/-- `ENC_START` answers a next state exactly in IDLE. -/
theorem encStart_next {w : Width} {v : Val} :
    encStart w v s = .next t ↔ s.encState = .idle ∧ t = s.loadEncoder (widen (widthBits Config.pbits w) v) := by
  cases h : s.encState <;> simp [encStart, h, eq_comm]

/-- `ENC_EMIT` answers a next state exactly in RUN, by one of two writes. -/
theorem encEmit_next : encEmit s = .next t ↔ s.encState = .run ∧
    (moreFollows s.encRem = true ∧ t = s.emit .run (s.encRem >>> Config.groupBits) (emitByte s.encRem) ∨
      moreFollows s.encRem = false ∧ t = s.emit .idle 0 (emitByte s.encRem)) := by
  cases h : s.encState <;> cases hm : moreFollows s.encRem <;> simp [encEmit, h, hm, eq_comm (b := t)]

/-- `DEC_START` answers a next state exactly outside RUN. -/
theorem decStart_next {w : Width} {x : List Byte} :
    decStart w x s = .next t ↔ s.decState ≠ .run ∧ t = s.loadDecoder w x := by
  cases h : s.decState <;> simp [decStart, h, eq_comm]

/-- `DEC_BYTE` answers a next state exactly in RUN with a byte left and the count below the cap. -/
theorem decByte_next : decByte s = .next t ↔ s.decState = .run ∧ ∃ b, s.inByte? = some b ∧
    ∃ h : s.decCnt.val < Config.capGroups, t = s.consume (phaseAfter s.decCnt.val b)
      (mergeGroup s.decAcc s.decCnt.val b) ⟨s.decCnt.val + 1, Nat.succ_lt_succ h⟩ := by
  cases h : s.decState <;> cases hb : s.inByte? <;> by_cases hn : s.decCnt.val < Config.capGroups <;>
    simp [decByte, h, hb, hn, eq_comm (b := t)]

/-- `DEC_BYTE` faults exactly in RUN with a byte left and the count at the cap (U11). -/
theorem decByte_fault {f : Fault} : decByte s = .fault f ↔
    f = .countPastCap ∧ s.decState = .run ∧ s.inByte? ≠ none ∧ ¬ s.decCnt.val < Config.capGroups := by
  cases h : s.decState <;> cases hb : s.inByte? <;> by_cases hn : s.decCnt.val < Config.capGroups <;>
    cases f <;> simp [decByte, h, hb, hn]

/-- `DEC_END` answers a next state exactly in RUN with every byte consumed. -/
theorem decEnd_next : decEnd s = .next t ↔
    s.decState = .run ∧ s.decCnt.val = s.inp.length ∧ t = s.finishDecode := by
  cases h : s.decState <;> by_cases hn : s.decCnt.val = s.inp.length <;> simp [decEnd, h, hn, eq_comm (b := t)]

/-- `DEC_RESULT` answers a next state exactly in DONE. -/
theorem decResult_next : decResult s = .next t ↔
    s.decState = .done ∧ t = s.sawResult s.decValue s.decCount := by
  cases h : s.decState <;> simp [decResult, h, eq_comm (b := t)]

theorem readStatus_eq (s : State) : readStatus s = .next (s.sawStatus s.statusLevels) := rfl

theorem resetStep_eq (s : State) : resetStep s = .next (State.reset.withAgenda s.agenda) := rfl

/-! ## Operations, moves and moments -/

/-- Every operation is the step of its kind at its width. -/
theorem exec_eq (i : Instr) (s : State) : exec i s =
    match i.kind with
    | .size => sizeEval i.width (i.val?.getD 0) s
    | .enc => encStart i.width (i.val?.getD 0) s
    | .dec => decStart i.width (i.input?.getD []) s := by
  cases i <;> rfl

theorem exec_instrOf_size (w : Width) (v : Val) (x : List Byte) (s : State) :
    exec (instrOf .size w v x) s = sizeEval w v s := by cases w <;> rfl

theorem exec_instrOf_enc (w : Width) (v : Val) (x : List Byte) (s : State) :
    exec (instrOf .enc w v x) s = encStart w v s := by cases w <;> rfl

theorem exec_instrOf_dec (w : Width) (v : Val) (x : List Byte) (s : State) :
    exec (instrOf .dec w v x) s = decStart w x s := by cases w <;> rfl

/-- What a command can do: one of the three kinds of start, by its `op` field, or a refusal (R55, R57). -/
theorem takeCommand_cases (c : Command) (s : State) :
    (opField c.cmd = 0b00#2 ∧ ∃ w, takeCommand c s = sizeEval w c.val s) ∨
    (opField c.cmd = 0b01#2 ∧ ∃ w, takeCommand c s = encStart w c.val s) ∨
    (opField c.cmd = 0b10#2 ∧ ∃ w, takeCommand c s = decStart w c.input s) ∨
    ∃ r, takeCommand c s = .refused r := by
  cases hs : selects c.cmd with
  | error e => exact .inr (.inr (.inr ⟨_, by rw [takeCommand, decode_of_reserved hs]⟩))
  | ok kw =>
    obtain ⟨k, w⟩ := kw
    have hop := (selects_eq_ok.mp hs).1
    have ht : takeCommand c s = exec (instrOf k w c.val c.input) s := by rw [takeCommand, decode_of_selects hs]
    cases k with
    | size => exact .inl ⟨hop, w, ht.trans (exec_instrOf_size ..)⟩
    | enc => exact .inr (.inl ⟨hop, w, ht.trans (exec_instrOf_enc ..)⟩)
    | dec => exact .inr (.inr (.inl ⟨hop, w, ht.trans (exec_instrOf_dec ..)⟩))

/-- A step is the next moment of the agenda, or nothing where the agenda is empty. -/
theorem step_next : step s = .next t ↔
    s.agenda = [] ∧ t = s ∨ ∃ m rest, s.agenda = m :: rest ∧ takeMoment m (s.withAgenda rest) = .next t := by
  unfold step takeNext
  split <;> simp_all [eq_comm]

theorem step_cons {m : Moment} {rest : List Moment} (h : s.agenda = m :: rest) :
    step s = takeMoment m (s.withAgenda rest) := by
  simp [step, takeNext, h]

@[simp] theorem takeMoment_reset (mv : Option Move) (s : State) : takeMoment ⟨true, mv⟩ s = resetStep s := rfl
@[simp] theorem takeMoment_idle (s : State) : takeMoment ⟨false, none⟩ s = .next s := rfl
@[simp] theorem takeMoment_move (mv : Move) (s : State) : takeMoment ⟨false, some mv⟩ s = takeMove mv s := rfl

/-- No move writes HOST's agenda. -/
theorem takeMove_agenda {m : Move} (h : takeMove m s = .next t) : t.agenda = s.agenda := by
  cases m with
  | command c =>
    simp only [takeMove] at h
    obtain ⟨-, w, e⟩ | ⟨-, w, e⟩ | ⟨-, w, e⟩ | ⟨r, e⟩ := takeCommand_cases c s <;> rw [e] at h
    · cases h; rfl
    · obtain ⟨-, rfl⟩ := encStart_next.mp h; rfl
    · obtain ⟨-, rfl⟩ := decStart_next.mp h; rfl
    · cases h
  | encEmit => obtain ⟨-, ⟨-, rfl⟩ | ⟨-, rfl⟩⟩ := encEmit_next.mp h <;> rfl
  | decByte => obtain ⟨-, b, -, hb, rfl⟩ := decByte_next.mp h; rfl
  | decEnd => obtain ⟨-, -, rfl⟩ := decEnd_next.mp h; rfl
  | readResult => obtain ⟨-, rfl⟩ := decResult_next.mp h; rfl
  | readStatus => cases h; rfl

/-- No moment writes HOST's agenda. -/
theorem takeMoment_agenda {m : Moment} (h : takeMoment m s = .next t) : t.agenda = s.agenda := by
  obtain ⟨r, mv⟩ := m
  cases r with
  | true => cases h; rfl
  | false =>
    cases mv with
    | none => cases h; rfl
    | some mv => exact takeMove_agenda h

/-! ## HOST driving the block -/

/-- `settle` takes the moment's next state, or drops the moment. -/
theorem settle_cases (s : State) : (∃ t, step s = .next t ∧ settle s = t) ∨
    ((∀ t, step s ≠ .next t) ∧ settle s = s.dropMoment) := by
  unfold settle
  cases h : step s <;> simp

/-- One moment is gone after `settle`, whatever became of it. -/
theorem settle_agenda (s : State) : (settle s).agenda = s.agenda.tail := by
  obtain ⟨t, h, e⟩ | ⟨-, e⟩ := settle_cases s <;> rw [e]
  · obtain ⟨h0, rfl⟩ | ⟨m, rest, ha, ht⟩ := step_next.mp h
    · simp [h0]
    · simp [takeMoment_agenda ht, ha]
  · rfl

@[simp] theorem drive_zero (s : State) : drive 0 s = s := rfl
@[simp] theorem drive_succ (n : Nat) (s : State) : drive (n + 1) s = drive n (settle s) := rfl

theorem State.withAgenda_eq {s : State} {ms : List Moment} (h : s.agenda = ms) : s.withAgenda ms = s := by
  subst h; rfl

theorem play_nil (s : State) : play s [] = s.withAgenda [] := rfl

theorem play_cons (s : State) (m : Moment) (ms : List Moment) :
    play s (m :: ms) = play (settle (s.withAgenda (m :: ms))) ms := by
  have h : (settle (s.withAgenda (m :: ms))).agenda = ms := settle_agenda _
  simp [play, State.withAgenda_eq h]

end Sys2Proof.Machine
end

