-- ==== Sys2Proof/Laws/PerInstr.lean ====
section
/-! SUPPORT. One lemma per operation about its command as `encode` gives it: it is one of the 15 words, with the unused lines
quiet (30_encoding.md R54, R57). -/

namespace Sys2Proof.Laws.CommandForm

/-- The command of an operation is well formed and quiet. -/
def Statement (i : Instr) : Prop := (encode i).wellFormed = true ∧ (encode i).quiet = true

/-- The command of an operation, written out. -/
theorem encode_def (i : Instr) :
    encode i = ⟨wordOf i.kind i.width, i.val?.getD 0, i.input?.getD []⟩ := rfl

theorem sizeW8 (v : Val) : Statement (.sizeW8 v) := by
  simp [Statement, Command.wellFormed, Command.opDefined, Command.wselDefined, Command.quiet, encode_def, Instr.kind,
    Instr.width, wordOf, Instr.val?, Instr.input?]
theorem sizeW16 (v : Val) : Statement (.sizeW16 v) := by
  simp [Statement, Command.wellFormed, Command.opDefined, Command.wselDefined, Command.quiet, encode_def, Instr.kind,
    Instr.width, wordOf, Instr.val?, Instr.input?]
theorem sizeW32 (v : Val) : Statement (.sizeW32 v) := by
  simp [Statement, Command.wellFormed, Command.opDefined, Command.wselDefined, Command.quiet, encode_def, Instr.kind,
    Instr.width, wordOf, Instr.val?, Instr.input?]
theorem sizeW64 (v : Val) : Statement (.sizeW64 v) := by
  simp [Statement, Command.wellFormed, Command.opDefined, Command.wselDefined, Command.quiet, encode_def, Instr.kind,
    Instr.width, wordOf, Instr.val?, Instr.input?]
theorem sizeWP (v : Val) : Statement (.sizeWP v) := by
  simp [Statement, Command.wellFormed, Command.opDefined, Command.wselDefined, Command.quiet, encode_def, Instr.kind,
    Instr.width, wordOf, Instr.val?, Instr.input?]
theorem encW8 (v : Val) : Statement (.encW8 v) := by
  simp [Statement, Command.wellFormed, Command.opDefined, Command.wselDefined, Command.quiet, encode_def, Instr.kind,
    Instr.width, wordOf, Instr.val?, Instr.input?]
theorem encW16 (v : Val) : Statement (.encW16 v) := by
  simp [Statement, Command.wellFormed, Command.opDefined, Command.wselDefined, Command.quiet, encode_def, Instr.kind,
    Instr.width, wordOf, Instr.val?, Instr.input?]
theorem encW32 (v : Val) : Statement (.encW32 v) := by
  simp [Statement, Command.wellFormed, Command.opDefined, Command.wselDefined, Command.quiet, encode_def, Instr.kind,
    Instr.width, wordOf, Instr.val?, Instr.input?]
theorem encW64 (v : Val) : Statement (.encW64 v) := by
  simp [Statement, Command.wellFormed, Command.opDefined, Command.wselDefined, Command.quiet, encode_def, Instr.kind,
    Instr.width, wordOf, Instr.val?, Instr.input?]
theorem encWP (v : Val) : Statement (.encWP v) := by
  simp [Statement, Command.wellFormed, Command.opDefined, Command.wselDefined, Command.quiet, encode_def, Instr.kind,
    Instr.width, wordOf, Instr.val?, Instr.input?]
theorem decW8 (x : List Byte) : Statement (.decW8 x) := by
  simp [Statement, Command.wellFormed, Command.opDefined, Command.wselDefined, Command.quiet, encode_def, Instr.kind,
    Instr.width, wordOf, Instr.val?, Instr.input?]
theorem decW16 (x : List Byte) : Statement (.decW16 x) := by
  simp [Statement, Command.wellFormed, Command.opDefined, Command.wselDefined, Command.quiet, encode_def, Instr.kind,
    Instr.width, wordOf, Instr.val?, Instr.input?]
theorem decW32 (x : List Byte) : Statement (.decW32 x) := by
  simp [Statement, Command.wellFormed, Command.opDefined, Command.wselDefined, Command.quiet, encode_def, Instr.kind,
    Instr.width, wordOf, Instr.val?, Instr.input?]
theorem decW64 (x : List Byte) : Statement (.decW64 x) := by
  simp [Statement, Command.wellFormed, Command.opDefined, Command.wselDefined, Command.quiet, encode_def, Instr.kind,
    Instr.width, wordOf, Instr.val?, Instr.input?]
theorem decWP (x : List Byte) : Statement (.decWP x) := by
  simp [Statement, Command.wellFormed, Command.opDefined, Command.wselDefined, Command.quiet, encode_def, Instr.kind,
    Instr.width, wordOf, Instr.val?, Instr.input?]

end Sys2Proof.Laws.CommandForm
end

