-- ==== Sys2Proof/Tests/Slice0.lean ====
section
/-! SUPPORT. Tests by evaluation. Expected results are the spec's: its command map (30_encoding.md R62), its vectors and traces
(95_test_vectors.md), its corner cases; none comes from the model. -/

namespace Sys2Proof

open Sys2Proof.Machine

/-! ## Small states -/

/-- ENC in RUN with the remaining value `r`. -/
def Tests.encRun (r : Val) : State := { State.reset with encState := .run, encRem := r }

/-- DEC in RUN on `x` at width `w`, `n` bytes consumed, `acc` accumulated. -/
def Tests.decRun (w : Width) (x : List Byte) (acc : Val) (n : Fin 11) : State :=
  { State.reset with decState := .run, decAcc := acc, decCnt := n, decW := w, inp := x }

/-- DEC in DONE. -/
def Tests.decDone (w : Width) (acc : Val) (n : Fin 11) (x : List Byte) : State :=
  { State.reset with decState := .done, decAcc := acc, decCnt := n, decW := w, inp := x }

/-- `b` repeated `n` times. -/
def Tests.times (n : Nat) (b : Byte) : List Byte := List.replicate n b

/-! ## Well-formedness: an ill-formed command for each check (30_encoding.md R57, R54) -/

theorem test_wf_reserved_op : (Command.mk 0b11000#5 0 []).opDefined = false ∧
    (Command.mk 0b11000#5 0 []).wellFormed = false ∧ (Command.mk 0b10000#5 0 []).wellFormed = true := by decide

theorem test_wf_reserved_width : (Command.mk 0b00101#5 0 []).wselDefined = false ∧
    (Command.mk 0b00101#5 0 []).wellFormed = false ∧ (Command.mk 0b00100#5 0 []).wellFormed = true := by decide

theorem test_wf_unquiet : (Command.mk 0b10000#5 1 []).quiet = false ∧ (Command.mk 0b00000#5 0 [0#8]).quiet = false ∧
    (Command.mk 0b10000#5 0 [0#8]).quiet = true ∧ (Command.mk 0b00000#5 1 []).quiet = true := by decide

/-! ## Decoding: each word written out from R62 -/

theorem test_decode_size : decode ⟨0b00000#5, 42, []⟩ = .ok (.sizeW8 42) ∧ decode ⟨0b00001#5, 42, []⟩ = .ok (.sizeW16 42) ∧
    decode ⟨0b00010#5, 42, []⟩ = .ok (.sizeW32 42) ∧ decode ⟨0b00011#5, 42, []⟩ = .ok (.sizeW64 42) ∧
    decode ⟨0b00100#5, 42, []⟩ = .ok (.sizeWP 42) := ⟨rfl, rfl, rfl, rfl, rfl⟩

theorem test_decode_enc : decode ⟨0b01000#5, 42, []⟩ = .ok (.encW8 42) ∧ decode ⟨0b01001#5, 42, []⟩ = .ok (.encW16 42) ∧
    decode ⟨0b01010#5, 42, []⟩ = .ok (.encW32 42) ∧ decode ⟨0b01011#5, 42, []⟩ = .ok (.encW64 42) ∧
    decode ⟨0b01100#5, 42, []⟩ = .ok (.encWP 42) := ⟨rfl, rfl, rfl, rfl, rfl⟩

theorem test_decode_dec : decode ⟨0b10000#5, 0, [7#8]⟩ = .ok (.decW8 [7#8]) ∧
    decode ⟨0b10001#5, 0, [7#8]⟩ = .ok (.decW16 [7#8]) ∧ decode ⟨0b10010#5, 0, [7#8]⟩ = .ok (.decW32 [7#8]) ∧
    decode ⟨0b10011#5, 0, [7#8]⟩ = .ok (.decW64 [7#8]) ∧ decode ⟨0b10100#5, 0, [7#8]⟩ = .ok (.decWP [7#8]) :=
  ⟨rfl, rfl, rfl, rfl, rfl⟩

theorem test_decode_reserved : decode ⟨0b00101#5, 0, []⟩ = .error .reservedWidth ∧
    decode ⟨0b01110#5, 0, []⟩ = .error .reservedWidth ∧ decode ⟨0b10111#5, 0, []⟩ = .error .reservedWidth ∧
    decode ⟨0b11000#5, 0, []⟩ = .error .reservedOp ∧ decode ⟨0b11111#5, 0, []⟩ = .error .reservedOp :=
  ⟨rfl, rfl, rfl, rfl, rfl⟩

theorem test_table_word : decodeTableWord 8 0b10100 = some (.decWP []) ∧ decodeTableWord 8 0b01011 = some (.encW64 0) ∧
    decodeTableWord 8 0b00101 = none ∧ decodeTableWord 8 0b100000 = none := ⟨rfl, rfl, rfl, rfl⟩

theorem test_fetch_word : step (State.reset.withFetchWord 8 0b01000) = .next (Tests.encRun 0) ∧
    step (State.reset.withFetchWord 8 0b10010) = .next (Tests.decRun .w32 [] 0 0) := ⟨rfl, rfl⟩

/-! ## SIZE (40_required_size.md R68 to R72; 95_test_vectors.md section 2) -/

theorem test_sizeW8 : exec (.sizeW8 0x1FF) (Tests.encRun 1) = .next ((Tests.encRun 1).sawSize 2) := rfl
theorem test_sizeW8_corner : [0, 127, 128, 255].map (opSize 64 .w8) = [1, 1, 2, 2] := by decide
theorem test_sizeW16 : exec (.sizeW16 0x3FFF) State.reset = .next (State.reset.sawSize 2) := rfl
theorem test_sizeW16_corner : [0, 16383, 16384, 65535].map (opSize 64 .w16) = [1, 2, 3, 3] := by decide
theorem test_sizeW32 : exec (.sizeW32 0xFFFFFFFF) State.reset = .next (State.reset.sawSize 5) := rfl
theorem test_sizeW32_corner :
    [0, 0x1FFFFF, 0x200000, 0x0FFFFFFF, 0x10000000].map (opSize 64 .w32) = [1, 3, 4, 4, 5] := by decide
theorem test_sizeW64 : exec (.sizeW64 0x8000000000000000) State.reset = .next (State.reset.sawSize 10) := rfl
theorem test_sizeW64_corner : [0, 0x7FFFFFFFFFFFFFFF, 0xFFFFFFFFFFFFFFFF].map (opSize 64 .w64) = [1, 9, 10] := by decide
theorem test_sizeWP : opSize 64 .wp 0xFFFFFFFFFFFFFFFF = 10 ∧ opSize 32 .wp 0xFFFFFFFFFFFFFFFF = 5 ∧ opSize 64 .wp 128 = 2 := by
  decide

/-! ## ENC (41_encode.md R83 to R90; 95_test_vectors.md sections 1, 2 and 5) -/

theorem test_encW8 : exec (.encW8 0x1FF) State.reset = .next (Tests.encRun 0xFF) := rfl
theorem test_encW8_corner : opEnc 64 .w8 0x1FF = [0xFF#8, 0x01#8] ∧ opEnc 64 .w8 0x100 = [0x00#8] := by decide
theorem test_encW16 : exec (.encW16 0x1012C) State.reset = .next (Tests.encRun 300) := rfl
theorem test_encW16_corner : opEnc 64 .w16 300 = [0xAC#8, 0x02#8] := by decide
theorem test_encW32 : exec (.encW32 0x1FFFFFFFF) State.reset = .next (Tests.encRun 0xFFFFFFFF) := rfl
theorem test_encW32_corner : opEnc 64 .w32 0xDEADBEEF = [0xEF#8, 0xFD#8, 0xB6#8, 0xF5#8, 0x0D#8] := by decide
theorem test_encW64 : exec (.encW64 1) (Tests.encRun 1) = .refused .encBusy := rfl
theorem test_encW64_corner : opEnc 64 .w64 0xFFFFFFFFFFFFFFFF = Tests.times 9 0xFF#8 ++ [0x01#8] := by decide
theorem test_encWP : opEnc 64 .wp 0x100000000 = [0x80#8, 0x80#8, 0x80#8, 0x80#8, 0x10#8] ∧
    opEnc 32 .wp 0x100000000 = [0x00#8] := by decide

/-- The trace of `ENC.W8 0xFF`, its first byte. -/
theorem test_emit_continues : encEmit (Tests.encRun 0xFF) = .next { Tests.encRun 1 with
    out := [0xFF#8], seen := { Seen.none with emitted := some (0xFF#8, false) } } := rfl

/-- The same trace, its last byte. -/
theorem test_emit_last : encEmit { Tests.encRun 1 with out := [0xFF#8] } = .next { State.reset with
    out := [0xFF#8, 0x01#8], seen := { Seen.none with emitted := some (0x01#8, true) } } := rfl

/-- The zero case takes one emit step. -/
theorem test_emit_zero : encEmit (Tests.encRun 0) = .next { State.reset with
    out := [0x00#8], seen := { Seen.none with emitted := some (0x00#8, true) } } := rfl

/-! ## DEC (42_decode.md R107 to R115; 95_test_vectors.md sections 3, 4, 5 and 8) -/

theorem test_decW8 : exec (.decW8 []) (Tests.decDone .w32 8 1 [8#8]) = .next (Tests.decRun .w8 [] 0 0) := rfl
theorem test_decW8_corner : opDec 64 .w8 [0xFF#8, 0x03#8] = (0xFF, 2) ∧ opDec 64 .w8 (Tests.times 12 0xFF#8) = (0xFF, 10) := by
  decide
theorem test_decW16 : exec (.decW16 [1#8]) State.reset = .next (Tests.decRun .w16 [1#8] 0 0) := rfl
theorem test_decW16_corner : opDec 64 .w16 [0xE5#8, 0x8E#8, 0x26#8] = (0x8765, 3) := by decide
theorem test_decW32 : exec (.decW32 []) (Tests.decRun .w8 [] 0 0) = .refused .decBusy := rfl
theorem test_decW32_corner : opDec 64 .w32 [0x80#8, 0x80#8, 0x80#8, 0x80#8, 0x10#8] = (0, 5) := by decide
theorem test_decW64 : opDec 64 .w64 (Tests.times 9 0x80#8 ++ [0x81#8, 0x55#8]) = (0x8000000000000000, 10) ∧
    opDec 64 .w64 (Tests.times 9 0x80#8 ++ [0x02#8]) = (0, 10) := by decide
theorem test_decW64_short : opDec 64 .w64 [] = (0, 0) ∧ opDec 64 .w64 [0x80#8, 0x80#8] = (0, 2) ∧
    opDec 64 .w64 (Tests.times 9 0xFF#8) = (0x7FFFFFFFFFFFFFFF, 9) := by decide
theorem test_decWP : opDec 64 .wp [0x80#8, 0x80#8, 0x80#8, 0x80#8, 0x10#8] = (0x100000000, 5) ∧
    opDec 32 .wp [0x80#8, 0x80#8, 0x80#8, 0x80#8, 0x10#8] = (0, 5) := by decide

/-- The trace of `DEC.W64 [0xE5, 0x8E, 0x26]`, its second byte. -/
theorem test_byte_goes_on : decByte (Tests.decRun .w64 [0xE5#8, 0x8E#8, 0x26#8] 0x65 1) =
    .next (Tests.decRun .w64 [0xE5#8, 0x8E#8, 0x26#8] 0x765 2) := rfl

/-- The same trace, its last byte. -/
theorem test_byte_terminator : decByte (Tests.decRun .w64 [0xE5#8, 0x8E#8, 0x26#8] 0x765 2) =
    .next (Tests.decDone .w64 0x98765 3 [0xE5#8, 0x8E#8, 0x26#8]) := rfl

/-- The tenth byte: bits 6 to 1 of its group lost, the cap stops the decode. -/
theorem test_byte_cap : decByte (Tests.decRun .w64 (Tests.times 9 0x80#8 ++ [0xFF#8]) 0 9) =
    .next (Tests.decDone .w64 0x8000000000000000 10 (Tests.times 9 0x80#8 ++ [0xFF#8])) := rfl

theorem test_end : decEnd (Tests.decRun .w32 [] 0 0) = .next (Tests.decDone .w32 0 0 []) ∧
    decEnd (Tests.decRun .w32 [0x80#8] 0 0) = .refused .notAtEnd := ⟨rfl, rfl⟩

/-- Program 2, step 23: the accumulator narrowed at the port. -/
theorem test_result : decResult (Tests.decDone .w8 0xFFFFFFFFFFFFFFFF 10 []) =
    .next ((Tests.decDone .w8 0xFFFFFFFFFFFFFFFF 10 []).sawResult 0xFF 10) := rfl

/-- The refusals of 95_test_vectors.md section 8. -/
theorem test_refusals : decResult State.reset = .refused .resultNotReady ∧ encEmit State.reset = .refused .encNotRunning ∧
    decByte (Tests.decDone .w8 0 1 [0#8, 0#8]) = .refused .decNotRunning := ⟨rfl, rfl, rfl⟩

/-- `RESET` from a state with both units in RUN (Program 4, step 8). -/
theorem test_reset : step { Tests.decRun .w64 [0x80#8] 5 1 with
    encState := .run, encRem := 0x37AB6, agenda := [⟨true, some .encEmit⟩] } = .next State.reset := rfl

/-! ## Witnesses: for each statement with hypotheses, states and operands that meet them, clause by clause -/

theorem witness_ReservedCommandRefused :
    (State.reset.withAgenda [presenting ⟨0b11000#5, 0, []⟩]).agenda = presenting ⟨0b11000#5, 0, []⟩ :: [] ∧
    (0b11000#5).toNat / 8 = 3 ∧ 5 ≤ (0b00101#5).toNat % 8 ∧ 5 ≤ (0b10111#5).toNat % 8 := by decide

theorem witness_StepRunsTheCommand :
    (State.reset.withAgenda [presenting ⟨0b01000#5, 255, []⟩, ⟨true, none⟩]).agenda =
      presenting ⟨0b01000#5, 255, []⟩ :: [⟨true, none⟩] ∧ decode ⟨0b01000#5, 255, []⟩ = .ok (.encW8 255) := ⟨rfl, rfl⟩

theorem witness_StepTakesTheMove :
    (State.reset.withAgenda [offering .readStatus]).agenda = offering .readStatus :: [] ∧
    (State.reset.withAgenda [⟨false, none⟩, ⟨true, none⟩]).agenda = ⟨false, none⟩ :: [⟨true, none⟩] ∧
    State.reset.agenda = [] := ⟨rfl, rfl, rfl⟩

/-- The second clause of `ResetRegisterValues`: `RESET` beside a start, both units in RUN. -/
theorem witness_ResetRegisterValues :
    let s : State := { Tests.decRun .w64 [0x80#8] 5 1 with
      encState := .run, encRem := 0x37AB6, agenda := [⟨true, some (.command ⟨0b01000#5, 1, []⟩)⟩] }
    s.agenda = ⟨true, some (.command ⟨0b01000#5, 1, []⟩)⟩ :: [] := rfl

theorem witness_ResetWinsFromEveryState :
    ((Tests.encRun 5).withAgenda [⟨true, some .encEmit⟩]).agenda = ⟨true, some .encEmit⟩ :: [] := rfl

theorem witness_SizeWithinTheByteBudget : 1 ≤ 1 ∧ 1 ≤ 64 ∧ 64 ≤ 64 := by decide

theorem witness_SizeIsMonotone : (127 : Val).toNat ≤ (128 : Val).toNat := by decide

theorem witness_SizeOutStaysInRange :
    (∀ n, (State.reset.sawSize 10).seen.size = some n → 1 ≤ n.toNat ∧ n.toNat ≤ 10) ∧
    step ((State.reset.sawSize 10).withAgenda [presenting ⟨0b00000#5, 0, []⟩]) = .next (State.reset.sawSize 1) :=
  ⟨fun n h => by cases h; decide, rfl⟩

theorem witness_EncodedBytesCarryTheGroups :
    (enc64 300)[0]? = some 0xAC#8 ∧ (enc64 300)[1]? = some 0x02#8 ∧ size64 300 ≤ 2 := by decide

theorem witness_EncodeLoopIsTheClosedForm : 9 ≤ 9 := Nat.le_refl 9

theorem witness_EncodedFormIsMinimalAndInjective :
    (enc64 128)[0]? = some 0x80#8 ∧ (enc64 128)[1]? = some 0x01#8 ∧ 1 < (enc64 128).length ∧
    (enc64 128).getLast? = some 0x01#8 := by decide

theorem witness_EncodeOutputsPerWidth : 1 ≤ 1 ∧ 64 ≤ 64 ∧ (opEnc 64 .w16 0x4000)[2]? = some 0x01#8 ∧
    (opEnc 64 .w32 0xFFFFFFFF)[4]? = some 0x0F#8 ∧ (opEnc 64 .w64 0x8000000000000000)[9]? = some 0x01#8 := by decide

theorem witness_EncodeStartLoadsTheOperand : State.reset.encState = .idle ∧ (Tests.encRun 0).encState = .run := by decide

theorem witness_EncodeEmitsOneByte :
    ((Tests.encRun 128).encState = .run ∧ 128 ≤ (Tests.encRun 128).encRem.toNat) ∧
    ((Tests.encRun 127).encState = .run ∧ (Tests.encRun 127).encRem.toNat < 128) ∧ State.reset.encState = .idle := by decide

/-- A refused start, a size evaluation and a decode, none of them `RESET` or an emit. -/
theorem witness_OutputByteWaitsForHost : (Tests.encRun 0xFF).encState = .run ∧
    ∀ m ∈ [presenting ⟨0b01000#5, 7, []⟩, presenting ⟨0b00000#5, 7, []⟩, presenting ⟨0b10000#5, 0, [1#8]⟩, offering .decByte],
      m.reset = false ∧ m.move ≠ some .encEmit := by decide

theorem witness_EncodeEndsWithinTenEmits : (Tests.encRun 0xFFFFFFFFFFFFFFFF).encState = .run := rfl

theorem witness_EncoderRealisesEncode : State.reset.encState = .idle ∧ 1 < opSize 64 .w16 300 := by decide

/-- Over-long at the two ends of the range: a terminator in second and in tenth place. -/
theorem witness_CountIsTheBytesConsumed : OverLong [0x80#8, 0x00#8] ∧ OverLong (Tests.times 9 0xFF#8 ++ [0x00#8]) ∧
    State.reset.decState ≠ .run ∧ (Tests.decDone .w8 1 1 [1#8]).decState ≠ .run := by
  refine ⟨⟨1, by decide, by decide, ?_, rfl⟩, ⟨9, by decide, by decide, ?_, rfl⟩, by decide, by decide⟩ <;> decide

theorem witness_ShortInputByDecisionD8 :
    (Tests.times 9 0x80#8).length < 10 ∧ (∀ b ∈ Tests.times 9 0x80#8, continues b = true) ∧
    ([] : List Byte).length < 10 ∧ ∀ b ∈ ([] : List Byte), continues b = true := by decide

theorem witness_CapIsTenAtEveryWidth :
    10 ≤ (Tests.times 10 0xFF#8).length ∧ ∀ b ∈ (Tests.times 10 0xFF#8).take 10, continues b = true := by decide

theorem witness_TenthByteOnlyBitZeroCounts : 0 < 9 ∧ 8 < 9 ∧
    (Tests.times 9 0x80#8).length = 9 ∧ (∀ c ∈ Tests.times 9 0x80#8, continues c = true) ∧
    (0x01#8).getLsbD 0 = (0xFF#8).getLsbD 0 ∧ (0x02#8).getLsbD 0 = (0x80#8).getLsbD 0 := by decide

theorem witness_BytesAfterTheStopDoNotCount : Terminated [0x80#8, 0x00#8] ∧ 10 ≤ (Tests.times 10 0x80#8).length :=
  ⟨⟨1, by decide, 0x00#8, rfl, by decide⟩, by decide⟩

theorem witness_RoundTripAtEveryWidth : 1 ≤ 1 ∧ 64 ≤ 64 ∧ (255 : Val).toNat < 2 ^ widthBits 64 .w8 ∧
    (255 : Val).toNat < 2 ^ widthBits 64 .wp ∧ (1 : Val).toNat < 2 ^ widthBits 1 .wp := by decide

theorem witness_AdaptersAreModTwoToTheWidth : 1 ≤ 1 ∧ 64 ≤ 64 ∧ (255 : Val).toNat < 2 ^ widthBits 1 .w8 := by decide

theorem witness_DecodeOutputsPerWidth : 1 ≤ 1 ∧ 1 ≤ 64 ∧ 64 ≤ 64 := by decide

theorem witness_DecodeStartClearsAndLatches : State.reset.decState = .idle ∧
    (Tests.decDone .w8 1 1 [1#8]).decState = .done ∧ (Tests.decRun .w8 [1#8] 0 0).decState = .run := by decide

/-- First byte, last byte before the cap, a terminator and a continuation byte. -/
theorem witness_DecodeByteMergesOneGroup :
    ((Tests.decRun .w8 [0x7F#8] 0 0).inp[0]? = some 0x7F#8 ∧ (0 : Nat) < 10) ∧
    ((Tests.decRun .w8 (Tests.times 10 0x80#8) 0 9).decState = .run ∧
      (Tests.decRun .w8 (Tests.times 10 0x80#8) 0 9).inp[9]? = some 0x80#8 ∧
      (Tests.decRun .w8 (Tests.times 10 0x80#8) 0 9).decCnt.val < 10) := by decide

/-- In RUN the invariant is met at the start, in the middle and before the tenth byte. -/
theorem witness_MergeIsAddition :
    ((Tests.decRun .w64 [0xE5#8, 0x8E#8, 0x26#8] 0x65 1).decState = .run ∧
      DecInv (Tests.decRun .w64 [0xE5#8, 0x8E#8, 0x26#8] 0x65 1)) ∧
    DecInv (Tests.decRun .w64 (Tests.times 10 0x80#8) 0 9) := by
  refine ⟨⟨rfl, by decide, by decide, ?_, by decide⟩, by decide, by decide, ?_, by decide⟩ <;> decide

theorem witness_DecodeEndOnlyAtTheEnd :
    ((Tests.decRun .w8 [0x80#8] 0 1).decState = .run ∧ (Tests.decRun .w8 [0x80#8] 0 1).decCnt.val = 1) ∧
    (Tests.decRun .w8 [0x80#8] 0 0).decCnt.val ≠ (Tests.decRun .w8 [0x80#8] 0 0).inp.length ∧
    State.reset.decState = .idle ∧ (Tests.decDone .w8 0 0 []).decState = .done := by decide

/-- Its clause under the invariant: nine continuation bytes consumed, and the end mark accepted. -/
theorem witness_DecodeEndOnlyAtTheEnd_inv : DecInv (Tests.decRun .w8 (Tests.times 9 0x80#8) 0 9) ∧
    decEnd (Tests.decRun .w8 (Tests.times 9 0x80#8) 0 9) = .next (Tests.decDone .w8 0 9 (Tests.times 9 0x80#8)) := by
  refine ⟨⟨by decide, by decide, ?_, by decide⟩, rfl⟩
  decide

theorem witness_InputAcceptedOnlyInRun :
    (State.reset.decState = .idle ∧ (State.reset.withAgenda [offering .decByte]).agenda = offering .decByte :: []) ∧
    ((Tests.decDone .w8 1 1 [1#8, 2#8]).decState = .done ∧
      ((Tests.decDone .w8 1 1 [1#8, 2#8]).withAgenda [offering .decEnd]).agenda = offering .decEnd :: []) := by decide

theorem witness_ResultReadOnlyInDone : (Tests.decDone .w16 0x98765 3 []).decState = .done ∧
    State.reset.decState = .idle ∧ (Tests.decRun .w16 [] 0 0).decState = .run := by decide

/-- HOST reads, starts an encode and offers a byte, none of them a `DEC.w` command or `RESET`. The last clause of
`ResultReadOnlyInDone` has the same premises. -/
theorem witness_ResultHoldsUntilTheNextStart : (Tests.decDone .w16 0x98765 3 []).decState = .done ∧
    ∀ m ∈ [offering .readResult, presenting ⟨0b01000#5, 7, []⟩, offering .decByte], m.reset = false ∧
      ∀ c, m.move = some (.command c) → opField c.cmd ≠ 0b10#2 := by
  refine ⟨rfl, fun m hm => ?_⟩
  fin_cases hm <;> refine ⟨rfl, fun c hc => ?_⟩ <;> cases hc
  decide

theorem witness_DecodeEndsWithinTenBytes :
    (Tests.decRun .w8 [0x80#8] 0 1).decState = .run ∧ DecInv (Tests.decRun .w8 [0x80#8] 0 1) ∧
    DecInv (Tests.decRun .w8 [] 0 0) := by
  refine ⟨rfl, ⟨by decide, by decide, ?_, by decide⟩, by decide, by decide, ?_, by decide⟩ <;> decide

/-- A byte left, and none left. -/
theorem witness_ByteOrEndButNotBoth :
    DecInv (Tests.decRun .w8 [0x80#8] 0 0) ∧ (Tests.decRun .w8 [0x80#8] 0 0).inValid = true ∧
    DecInv (Tests.decRun .w8 [0x80#8] 0 1) ∧ (Tests.decRun .w8 [0x80#8] 0 1).inEnd = true := by
  refine ⟨⟨by decide, by decide, ?_, by decide⟩, by decide, ⟨by decide, by decide, ?_, by decide⟩, by decide⟩ <;> decide

theorem witness_DecoderRealisesDecode :
    State.reset.decState = .idle ∧ Terminated [0xAC#8, 0x02#8, 0x7F#8] ∧ 10 ≤ (Tests.times 12 0xFF#8).length ∧
    ¬ (Terminated [] ∨ 10 ≤ ([] : List Byte).length) := by
  refine ⟨rfl, ⟨1, by decide, 0x02#8, rfl, by decide⟩, by decide, ?_⟩
  rintro (⟨t, -, b, hb, -⟩ | h)
  · simp at hb
  · simp at h

/-- PBITS at both ends of its range, and an input for each recipe: short, stopped by the cap, bits lost, too wide for `W8`. -/
theorem witness_RecipesAreRight : (1 ≤ 1 ∧ 1 ≤ 64 ∧ 64 ≤ 64) ∧
    ((dec64 [0x80#8]).2 = 1 ∧ ([0x80#8] : List Byte)[0]? = some 0x80#8) ∧
    (10 ≤ (Tests.times 10 0x80#8).length ∧ ∀ b ∈ (Tests.times 10 0x80#8).take 10, continues b = true) ∧
    (dec64 (Tests.times 9 0x80#8 ++ [0x02#8])).1.toNat ≠ exactSum (Tests.times 9 0x80#8 ++ [0x02#8]) 10 ∧
    (opDec 1 .w8 [0xFF#8, 0x03#8]).1 ≠ (dec64 [0xFF#8, 0x03#8]).1 := by decide

theorem witness_BusyUnitRefusesTheStart :
    ((Tests.encRun 1).encState = .run ∧ (Command.mk 0b01000#5 1 []).wellFormed = true ∧ opField 0b01000#5 = 0b01#2) ∧
    ((Tests.decRun .w8 [] 0 0).decState = .run ∧ (Command.mk 0b10100#5 0 [1#8]).wellFormed = true ∧
      opField 0b10100#5 = 0b10#2) ∧
    ((Tests.encRun 1).withAgenda [presenting ⟨0b01000#5, 1, []⟩]).agenda = presenting ⟨0b01000#5, 1, []⟩ :: [] := by decide

theorem witness_reset_inv : State.reset.Inv := ⟨⟨rfl, .inl rfl⟩, ⟨rfl, rfl, rfl, rfl⟩⟩

/-- A state in RUN on both sides, meeting the invariant, whose step is accepted: `ENC.W16 300` after one byte, DEC after one of
two. -/
theorem witness_InvariantKeptByEveryStep :
    let s : State := { Tests.decRun .w16 [0xAC#8, 0x02#8] 0x2C 1 with
      encState := .run, encRem := 2, out := [0xAC#8], agenda := [offering .encEmit] }
    s.Inv ∧ ∃ t, step s = .next t := by
  refine ⟨⟨⟨300, by decide, by decide, by decide⟩, by decide, by decide, ?_, by decide⟩, _, rfl⟩
  decide

/-- Its first clause asks for the invariant, its second for a fault: the stuck state of U11, which no run reaches. -/
theorem witness_NoStepFaults : State.reset.Inv ∧
    step ((Tests.decRun .w8 (Tests.times 11 0x80#8) 0 10).withAgenda [offering .decByte]) = .fault .countPastCap :=
  ⟨witness_reset_inv, rfl⟩

theorem witness_RegistersHaveTheirWritersOnly :
    (∃ t, step ((Tests.encRun 1).withAgenda [offering .encEmit]) = .next t ∧ (offering .encEmit).forDec = false) ∧
    (∃ t, step ((Tests.decRun .w8 [1#8] 0 0).withAgenda [offering .decByte]) = .next t ∧
      (offering .decByte).forEnc = false ∧ (Tests.decRun .w8 [1#8] 0 0).decState ≠ .idle) ∧
    (∃ t, step (State.reset.withAgenda [offering .readStatus]) = .next t) ∧
    ∃ t, step ((Tests.decDone .w8 1 1 [1#8]).withAgenda [offering .readResult]) = .next t :=
  ⟨⟨_, rfl, rfl⟩, ⟨_, rfl, rfl, by decide⟩, ⟨_, rfl⟩, ⟨_, rfl⟩⟩

theorem witness_UnitMovesCommute : Move.encEmit.forEnc = true ∧ Move.decByte.forDec = true ∧
    (Move.command ⟨0b01000#5, 1, []⟩).forEnc = true ∧ (Move.command ⟨0b10000#5, 0, [1#8]⟩).forDec = true := by decide

theorem witness_ResultsDoNotDependOnHistory :
    ({ State.reset with encRem := 5, out := [1#8] } : State).encState = .idle ∧ State.reset.encState = .idle ∧
    (Tests.decDone .w32 7 1 [7#8]).decState ≠ .run ∧ State.reset.decState ≠ .run := by decide

theorem witness_PartialOutputIsNoEncoding :
    EncInv { Tests.encRun 0x37AB6 with out := [0xEF#8, 0xFD#8] } ∧ (Tests.encRun 0x37AB6).encState = .run :=
  ⟨⟨0xDEADBEEF, by decide, by decide, by decide⟩, rfl⟩

end Sys2Proof
end

section
/-! Proofs about `RESET` (10_state.md R24, 70_reset_and_hazards.md R150). -/

namespace Sys2Proof.Machine

/-- `RESET` wins over the move beside it (R138, R150): the reset state, with HOST's further moments. -/
theorem step_of_reset {s : State} {mv : Option Move} {rest : List Moment} (h : s.agenda = ⟨true, mv⟩ :: rest) :
    step s = .next (State.reset.withAgenda rest) := by
  rw [step_cons h, takeMoment_reset, resetStep_eq, State.withAgenda_agenda]

/-- The reset values of R24, whatever HOST offers next. -/
theorem reset_withAgenda_registers (rest : List Moment) :
    let t := State.reset.withAgenda rest
    t.encState = .idle ∧ t.encRem = 0 ∧ t.decState = .idle ∧ t.decAcc = 0 ∧ t.decCnt = 0 ∧ t.decW.code = 0 ∧
      t.inp = [] ∧ t.out = [] :=
  ⟨rfl, rfl, rfl, rfl, rfl, rfl, rfl, rfl⟩

/-- Settles O6: by `step_of_reset` the step answers the reset state whatever `s` was, and the reset state holds R24's values. -/
theorem resetRegisterValues : Obligations.ResetRegisterValues :=
  ⟨reset_withAgenda_registers [], fun _ _ rest h => ⟨_, step_of_reset h, reset_withAgenda_registers rest⟩⟩

end Sys2Proof.Machine
end

section
/-! Proofs about the command word: the complete map (30_encoding.md R62) and the reserved words (R57). -/

namespace Sys2Proof

/-! ## The command map -/

theorem selects_wordOf (k : Kind) (w : Width) : selects (wordOf k w) = .ok (k, w) := by
  cases k <;> cases w <;> rfl

theorem decode_wordOf (k : Kind) (w : Width) (v : Val) (x : List Byte) :
    decode ⟨wordOf k w, v, x⟩ = .ok (instrOf k w v x) :=
  decode_of_selects (selects_wordOf k w)

/-! ## Reserved words -/

theorem opField_toNat (cmd : BitVec 5) : (opField cmd).toNat = cmd.toNat / 8 := by
  revert cmd; decide

theorem wselField_toNat (cmd : BitVec 5) : (wselField cmd).toNat = cmd.toNat % 8 := by
  revert cmd; decide

/-- The one reserved `op` value (R55). -/
theorem kindOf_eq_none {op : BitVec 2} : kindOf op = none ↔ op.toNat = 3 := by
  revert op; decide

/-- The three reserved `wsel` values (R56). -/
theorem widthOfCode_eq_none {wsel : BitVec 3} : widthOfCode wsel = none ↔ 5 ≤ wsel.toNat := by
  revert wsel; decide

/-- A word selects nothing exactly when one of its two fields is reserved (R57). -/
theorem selects_error_iff {cmd : BitVec 5} :
    (∃ e, selects cmd = .error e) ↔ cmd.toNat / 8 = 3 ∨ 5 ≤ cmd.toNat % 8 := by
  rw [← opField_toNat, ← wselField_toNat, ← kindOf_eq_none, ← widthOfCode_eq_none]
  unfold selects
  cases kindOf (opField cmd) <;> cases widthOfCode (wselField cmd) <;> simp

/-- The operand lines play no part in a rejection. -/
theorem decode_error_iff_selects {c : Command} {e : DecodeError} : decode c = .error e ↔ selects c.cmd = .error e := by
  cases h : selects c.cmd with
  | error e' => rw [decode_of_reserved h]; simp
  | ok kw => rw [decode_of_selects h]; simp

theorem decode_error_iff {c : Command} :
    (∃ e, decode c = .error e) ↔ c.cmd.toNat / 8 = 3 ∨ 5 ≤ c.cmd.toNat % 8 := by
  simp only [decode_error_iff_selects, selects_error_iff]

end Sys2Proof

namespace Sys2Proof.Machine

/-- A command presented at the port is what the step takes (R21). -/
theorem step_presenting {s : State} {c : Command} {rest : List Moment} (h : s.agenda = presenting c :: rest) :
    step s = takeCommand c (s.withAgenda rest) :=
  step_cons h

theorem takeCommand_of_error {c : Command} {e : DecodeError} (h : decode c = .error e) (s : State) :
    takeCommand c s = .refused (refusalOf e) := by
  rw [takeCommand, h]

/-- HOST goes on past a refused moment with nothing else changed. -/
theorem settle_of_refused {s : State} {r : Refusal} {m : Moment} {rest : List Moment} (ha : s.agenda = m :: rest)
    (h : step s = .refused r) : settle s = s.withAgenda rest := by
  rw [settle, h, State.dropMoment, ha, List.tail_cons]

/-- Settles O3: by `decode_error_iff` the reserved words are those the decoder rejects, and a rejected command is refused under
the name of its error, which `settle_of_refused` drops. -/
theorem reservedCommandRefused : Obligations.ReservedCommandRefused := by
  refine ⟨fun _ => decode_error_iff.symm, by decide, fun s c rest ha hres => ?_⟩
  obtain ⟨e, he⟩ := decode_error_iff.mpr hres
  have hstep : step s = .refused (refusalOf e) := by rw [step_presenting ha, takeCommand_of_error he]
  refine ⟨?_, settle_of_refused ha hstep⟩
  cases e with
  | reservedOp => exact .inl hstep
  | reservedWidth => exact .inr hstep

/-- Settles O1: the operation words are the values of `wordOf`, and every word of the reserved list has a reserved field. -/
theorem commandMapDecodes : Obligations.CommandMapDecodes := by
  intro v x
  refine ⟨decode_wordOf .size .w8 v x, decode_wordOf .size .w16 v x, decode_wordOf .size .w32 v x,
    decode_wordOf .size .w64 v x, decode_wordOf .size .wp v x, decode_wordOf .enc .w8 v x, decode_wordOf .enc .w16 v x,
    decode_wordOf .enc .w32 v x, decode_wordOf .enc .w64 v x, decode_wordOf .enc .wp v x, decode_wordOf .dec .w8 v x,
    decode_wordOf .dec .w16 v x, decode_wordOf .dec .w32 v x, decode_wordOf .dec .w64 v x, decode_wordOf .dec .wp v x,
    fun w hw => decode_error_iff.mpr ?_⟩
  revert w
  dsimp only
  decide

end Sys2Proof.Machine
end

section
/-! Proofs about the wire layout (30_encoding.md R47, 41_encode.md R80): which bits of the value a byte carries, and that
`SIZE64` groups hold them all. -/

namespace Sys2Proof.Machine

/-! ## How many groups a value has -/

theorem toNat_ushiftRight_seven_lt {r : Val} {n : Nat} : (r >>> 7).toNat < 2 ^ (7 * n) ↔ r.toNat < 2 ^ (7 * (n + 1)) := by
  rw [BitVec.toNat_ushiftRight, Nat.shiftRight_eq_div_pow, Nat.div_lt_iff_lt_mul (by decide), ← Nat.pow_add, Nat.mul_succ]

theorem countShifts_zero_value (fuel : Nat) : countShifts fuel 0#64 = 0 := by
  cases fuel <;> rfl

theorem countShifts_succ_of_ne_zero {r : Val} (hr : r ≠ 0) (fuel : Nat) :
    countShifts (fuel + 1) r = countShifts fuel (r >>> 7) + 1 :=
  if_neg hr

/-- With enough fuel the shifting loop counts the least number of groups that hold the value. -/
theorem countShifts_le_iff {fuel : Nat} {r : Val} {n : Nat} (hfuel : r.toNat < 2 ^ (7 * fuel)) :
    countShifts fuel r ≤ n ↔ r.toNat < 2 ^ (7 * n) := by
  induction fuel generalizing r n with
  | zero =>
    have hr : r.toNat = 0 := by simpa using hfuel
    simp [countShifts, hr]
  | succ fuel ih =>
    by_cases hr : r = 0
    · simp [hr, countShifts_zero_value]
    · rw [countShifts_succ_of_ne_zero hr]
      cases n with
      | zero => simpa [BitVec.toNat_eq] using hr
      | succ n => rw [Nat.add_le_add_iff_right, ih (toNat_ushiftRight_seven_lt.mpr hfuel), toNat_ushiftRight_seven_lt]

@[simp] theorem size64_zero : size64 0#64 = 1 := rfl

theorem size64_of_ne_zero {v : Val} (hv : v ≠ 0) : size64 v = countShifts 10 v := if_neg hv

theorem size64_pos (v : Val) : 0 < size64 v := by
  by_cases hv : v = 0
  · simp [hv]
  · rw [size64_of_ne_zero hv, countShifts_succ_of_ne_zero hv]
    exact Nat.succ_pos _

/-- `n` groups, at least one, suffice exactly when the value fits in their bits (R65). -/
theorem size64_le_iff {v : Val} {n : Nat} (hn : 0 < n) : size64 v ≤ n ↔ v.toNat < 2 ^ (7 * n) := by
  by_cases hv : v = 0
  · simpa [hv] using Nat.succ_le_iff.mpr hn
  · rw [size64_of_ne_zero hv]
    exact countShifts_le_iff (v.isLt.trans (by decide))

/-- The groups that are not sent are zero (R80). -/
theorem groupAt_eq_zero {v : Val} {i : Nat} (h : size64 v ≤ i) : groupAt v i = 0 := by
  have hlt : v.toNat < 2 ^ (7 * i) := (size64_le_iff ((size64_pos v).trans_le h)).mp h
  have hshift : v >>> (7 * i) = 0 :=
    BitVec.eq_of_toNat_eq (by simp [Nat.shiftRight_eq_div_pow, Nat.div_eq_of_lt hlt])
  simp [groupAt, hshift]

/-! ## The bits of a byte -/

theorem getLsbD_byteOf {j : Nat} (h : j < 7) (c : Bool) (g : BitVec 7) : (byteOf c g).getLsbD j = g.getLsbD j := by
  rw [byteOf, BitVec.getLsbD_append, if_pos h]

theorem getLsbD_groupAt {j : Nat} (h : j < 7) (v : Val) (i : Nat) : (groupAt v i).getLsbD j = v.getLsbD (7 * i + j) := by
  simp [groupAt, h]

/-! ## The bytes of `ENC64` -/

@[simp] theorem length_enc64 (v : Val) : (enc64 v).length = size64 v := by simp [enc64]

theorem getElem?_enc64_eq_some {v : Val} {i : Nat} {b : Byte} :
    (enc64 v)[i]? = some b ↔ i < size64 v ∧ b = byteOf (decide (i + 1 < size64 v)) (groupAt v i) := by
  by_cases h : i < size64 v <;> simp [enc64, h, eq_comm (a := b)]

/-- Settles O13: byte `i` is `byteOf` of group `i`, whose seven bits are those of the value from `7 * i` on, and the value fits in
the groups that are sent. -/
theorem encodedBytesCarryTheGroups : Obligations.EncodedBytesCarryTheGroups := by
  refine fun v => ⟨length_enc64 v, fun i b hb => ?_, fun i hi => groupAt_eq_zero hi⟩
  obtain ⟨-, rfl⟩ := getElem?_enc64_eq_some.mp hb
  refine ⟨fun j hj => (getLsbD_byteOf hj _ _).trans (getLsbD_groupAt hj v i), ?_⟩
  have hbit : (byteOf (decide (i + 1 < size64 v)) (groupAt v i)).getLsbD 7 = decide (i + 1 < size64 v) :=
    continues_byteOf _ _
  rw [hbit, decide_eq_true_iff]
  omega

end Sys2Proof.Machine
end

section
/-! Proofs about the required size (40_required_size.md R65 to R72): the closed forms of `SIZE64`, the five evaluations, and the
range of `size_out`. -/

namespace Sys2Proof.Machine

/-! ## `SIZE64` against its closed forms -/

theorem bitLength_le_iff {k m : Nat} : bitLength k ≤ m ↔ k < 2 ^ m := by
  by_cases hk : k = 0
  · simp [bitLength, hk]
  · rw [bitLength, if_neg hk, Nat.succ_le_iff, Nat.log2_lt hk]

theorem ceilSeven_le_iff {m n : Nat} : ceilSeven m ≤ n ↔ m ≤ 7 * n := by
  unfold ceilSeven
  omega

/-- The ceiling is the least number of groups with that many bits, as `SIZE64` is by `size64_le_iff`. -/
theorem size64_eq_max_ceilSeven (v : Val) : size64 v = max 1 (ceilSeven (bitLength v.toNat)) := by
  refine eq_of_forall_ge_iff fun n => ?_
  obtain rfl | hn := Nat.eq_zero_or_pos n
  · have hpos := size64_pos v
    omega
  · rw [size64_le_iff hn, max_le_iff, ceilSeven_le_iff, bitLength_le_iff]
    exact (and_iff_right hn).symm

theorem size64_le_ten (v : Val) : size64 v ≤ 10 :=
  (size64_le_iff (by decide)).mpr (v.isLt.trans (by decide))

/-- Row `i` of the table asks whether `i` groups suffice. -/
theorem size64_eq_sizeByThreshold (v : Val) : size64 v = sizeByThreshold v.toNat := by
  have suffice (i : Nat) : v.toNat < 2 ^ (7 * (i + 1)) ↔ size64 v ≤ i + 1 := (size64_le_iff i.succ_pos).symm
  have hpos := size64_pos v
  have hle := size64_le_ten v
  simp only [sizeByThreshold, suffice 0, suffice 1, suffice 2, suffice 3, suffice 4, suffice 5, suffice 6, suffice 7, suffice 8]
  split_ifs <;> omega

/-- Settles O8: the loop counts the least number of groups that hold the value (`size64_le_iff`), and so do the formula and the
table. -/
theorem sizeIsTheBitLengthFormula : Obligations.SizeIsTheBitLengthFormula := fun v =>
  ⟨size64_eq_max_ceilSeven v, size64_eq_sizeByThreshold v, size64_pos v, size64_le_ten v, (length_enc64 v).symm⟩

/-! ## The size at a width -/

theorem toNat_widen {bits : Nat} (h : bits ≤ 64) (v : Val) : (widen bits v).toNat = v.toNat % 2 ^ bits := by
  simp [widen, Nat.mod_eq_of_lt ((Nat.mod_lt _ (Nat.two_pow_pos bits)).trans_le (Nat.pow_le_pow_right (by decide) h))]

theorem widthBits_pos {p : Nat} (hp : 1 ≤ p) (w : Width) : 1 ≤ widthBits p w := by
  cases w <;> simp [widthBits, hp]

theorem widthBits_le {p : Nat} (hp : p ≤ 64) (w : Width) : widthBits p w ≤ 64 := by
  cases w <;> simp [widthBits, hp]

theorem opSize_eq_sizeByThreshold {p : Nat} (hp : p ≤ 64) (w : Width) (v : Val) :
    opSize p w v = sizeByThreshold (v.toNat % 2 ^ widthBits p w) := by
  rw [opSize, size64_eq_sizeByThreshold, toNat_widen (widthBits_le hp w)]

theorem opSize_pos (p : Nat) (w : Width) (v : Val) : 1 ≤ opSize p w v := size64_pos _

theorem opSize_le_ten (p : Nat) (w : Width) (v : Val) : opSize p w v ≤ 10 := size64_le_ten _

/-- `W` bits fit in `ceil(W/7)` groups. -/
theorem opSize_le_ceilSeven {p : Nat} (hpos : 1 ≤ p) (hp : p ≤ 64) (w : Width) (v : Val) :
    opSize p w v ≤ ceilSeven (widthBits p w) := by
  have hbits : widthBits p w ≤ 7 * ceilSeven (widthBits p w) := ceilSeven_le_iff.mp le_rfl
  have hgroups : 0 < ceilSeven (widthBits p w) := by
    have hw := widthBits_pos hpos w
    omega
  rw [opSize, size64_le_iff hgroups, toNat_widen (widthBits_le hp w)]
  exact (Nat.mod_lt _ (Nat.two_pow_pos _)).trans_le (Nat.pow_le_pow_right (by decide) hbits)

/-! ## The evaluations -/

/-- What R67 to R72 say of every width alike: the word, the range and the effect. -/
theorem sizeCommand_completes (w : Width) (v : Val) (x : List Byte) (s : State) :
    decode ⟨wordOf .size w, v, x⟩ = .ok (instrOf .size w v x) ∧
    1 ≤ sizeByThreshold (v.toNat % 2 ^ widthBits Config.pbits w) ∧
    sizeByThreshold (v.toNat % 2 ^ widthBits Config.pbits w) ≤ ceilSeven (widthBits Config.pbits w) ∧
    exec (instrOf .size w v x) s =
      .next (s.sawSize (BitVec.ofNat 4 (sizeByThreshold (v.toNat % 2 ^ widthBits Config.pbits w)))) := by
  rw [← opSize_eq_sizeByThreshold Config.pbits_le]
  exact ⟨decode_wordOf .size w v x, opSize_pos _ w v, opSize_le_ceilSeven Config.one_le_pbits Config.pbits_le w v,
    (exec_instrOf_size w v x s).trans (sizeEval_eq w v s)⟩

/-- The table at width 8 (R68). -/
theorem ofNat_sizeByThreshold_of_lt_pow_eight {k : Nat} (hk : k < 2 ^ 8) :
    BitVec.ofNat 4 (sizeByThreshold k) = if k < 128 then 1 else 2 := by
  have h14 : k < 2 ^ 14 := hk.trans (by decide)
  rw [sizeByThreshold, if_pos h14, apply_ite (BitVec.ofNat 4)]
  rfl

/-- The table at width 16 (R69). -/
theorem ofNat_sizeByThreshold_of_lt_pow_sixteen {k : Nat} (hk : k < 2 ^ 16) :
    BitVec.ofNat 4 (sizeByThreshold k) = if k < 128 then 1 else if k < 16384 then 2 else 3 := by
  have h21 : k < 2 ^ 21 := hk.trans (by decide)
  rw [sizeByThreshold, if_pos h21, apply_ite (BitVec.ofNat 4), apply_ite (BitVec.ofNat 4)]
  rfl

/-- Settles O9: every clause is `sizeCommand_completes` at one width, with the table cut to the rows that width can reach. -/
theorem sizeEvaluatesInEveryState : Obligations.SizeEvaluatesInEveryState := by
  intro v x s
  obtain ⟨hword8, -, -, hexec8⟩ := sizeCommand_completes .w8 v x s
  obtain ⟨hword16, -, -, hexec16⟩ := sizeCommand_completes .w16 v x s
  have h64 := sizeCommand_completes .w64 v x s
  obtain ⟨hwordP, hposP, hleP, hexecP⟩ := sizeCommand_completes .wp v x s
  simp only [widthBits] at hexec8 hexec16 h64
  rw [ofNat_sizeByThreshold_of_lt_pow_eight (Nat.mod_lt _ (by decide))] at hexec8
  rw [ofNat_sizeByThreshold_of_lt_pow_sixteen (Nat.mod_lt _ (by decide))] at hexec16
  rw [Nat.mod_eq_of_lt v.isLt] at h64
  exact ⟨⟨hword8, hexec8⟩, ⟨hword16, hexec16⟩, sizeCommand_completes .w32 v x s, h64, hwordP, hposP, hleP, hexecP, rfl, rfl⟩

/-! ## The range of `size_out` -/

/-- Four bits hold every size (R66). -/
theorem toNat_sizeOut (w : Width) (v : Val) : (sizeOut w v).toNat = opSize Config.pbits w v := by
  have hlt : opSize Config.pbits w v < 2 ^ 4 := (opSize_le_ten _ w v).trans_lt (by decide)
  rw [sizeOut, BitVec.toNat_ofNat, Nat.mod_eq_of_lt hlt]

theorem sizeOut_range (w : Width) (v : Val) : 1 ≤ (sizeOut w v).toNat ∧ (sizeOut w v).toNat ≤ 10 := by
  rw [toNat_sizeOut]
  exact ⟨opSize_pos _ w v, opSize_le_ten _ w v⟩

/-- Only a `SIZE.w` evaluation makes HOST take another size. -/
theorem takeMove_seen_size {m : Move} {s t : State} (h : takeMove m s = .next t) :
    t.seen.size = s.seen.size ∨ ∃ w v, t.seen.size = some (sizeOut w v) := by
  cases m with
  | command c =>
    simp only [takeMove] at h
    obtain ⟨-, w, e⟩ | ⟨-, w, e⟩ | ⟨-, w, e⟩ | ⟨r, e⟩ := takeCommand_cases c s <;> rw [e] at h
    · cases h; exact .inr ⟨w, c.val, rfl⟩
    · obtain ⟨-, rfl⟩ := encStart_next.mp h; exact .inl rfl
    · obtain ⟨-, rfl⟩ := decStart_next.mp h; exact .inl rfl
    · cases h
  | encEmit => obtain ⟨-, ⟨-, rfl⟩ | ⟨-, rfl⟩⟩ := encEmit_next.mp h <;> exact .inl rfl
  | decByte => obtain ⟨-, b, -, hb, rfl⟩ := decByte_next.mp h; exact .inl rfl
  | decEnd => obtain ⟨-, -, rfl⟩ := decEnd_next.mp h; exact .inl rfl
  | readResult => obtain ⟨-, rfl⟩ := decResult_next.mp h; exact .inl rfl
  | readStatus => cases h; exact .inl rfl

/-- A step leaves the size HOST last took, clears it (`RESET`), or is an evaluation. -/
theorem step_seen_size {s t : State} (h : step s = .next t) :
    t.seen.size = s.seen.size ∨ t.seen.size = none ∨ ∃ w v, t.seen.size = some (sizeOut w v) := by
  obtain ⟨-, rfl⟩ | ⟨⟨reset, mv⟩, rest, -, hm⟩ := step_next.mp h
  · exact .inl rfl
  · cases reset with
    | true => cases hm; exact .inr (.inl rfl)
    | false =>
      cases mv with
      | none => cases hm; exact .inl rfl
      | some mv => exact (takeMove_seen_size hm).imp_right .inr

/-- Settles O12: the size after a step is the one before, none, or a value of `sizeOut`, which `sizeOut_range` bounds. -/
theorem sizeOutStaysInRange : Obligations.SizeOutStaysInRange := by
  intro s t hs h n hn
  obtain hsame | hnone | ⟨w, v, heval⟩ := step_seen_size h
  · exact hs n (hsame.symm.trans hn)
  · cases hnone.symm.trans hn
  · obtain rfl : sizeOut w v = n := Option.some.inj (heval.symm.trans hn)
    exact sizeOut_range w v

end Sys2Proof.Machine
end

section
/-! Proofs about the encoder's steps (41_encode.md R88 to R90): what `ENC_START` loads and what `ENC_EMIT` emits. -/

namespace Sys2Proof.Machine

/-! ## `ENC_START` -/

theorem widen_eq_ofNat {bits : Nat} (h : bits ≤ 64) (v : Val) : widen bits v = BitVec.ofNat 64 (v.toNat % 2 ^ bits) := by
  have hlt : v.toNat % 2 ^ bits < 2 ^ 64 := (Nat.mod_le _ _).trans_lt v.isLt
  exact BitVec.eq_of_toNat_eq (by rw [toNat_widen h, BitVec.toNat_ofNat, Nat.mod_eq_of_lt hlt])

/-- At width 64 the operand is the whole port (R86). -/
@[simp] theorem widen_sixtyFour (v : Val) : widen 64 v = v := by simp [widen]

theorem encStart_of_idle {s : State} (h : s.encState = .idle) (w : Width) (v : Val) :
    encStart w v s = .next (s.loadEncoder (widen (widthBits Config.pbits w) v)) :=
  encStart_next.mpr ⟨h, rfl⟩

theorem encStart_of_run {s : State} (h : s.encState = .run) (w : Width) (v : Val) :
    encStart w v s = .refused .encBusy := by
  rw [encStart, h]

/-- Settles O17: each operation is `encStart` at its width, which in IDLE loads the widened operand and in RUN refuses. -/
theorem encodeStartLoadsTheOperand : Obligations.EncodeStartLoadsTheOperand := by
  refine ⟨fun v s hidle => ?_, fun v s hrun => ?_⟩
  · have start (w : Width) : encStart w v s =
        .next (s.loadEncoder (BitVec.ofNat 64 (v.toNat % 2 ^ widthBits Config.pbits w))) := by
      rw [encStart_of_idle hidle, widen_eq_ofNat (widthBits_le Config.pbits_le w)]
    have start64 : encStart .w64 v s = .next (s.loadEncoder v) := by
      rw [encStart_of_idle hidle, widthBits, widen_sixtyFour]
    exact ⟨start .w8, start .w16, start .w32, start64, start .wp⟩
  · have busy (w : Width) : encStart w v s = .refused .encBusy := encStart_of_run hrun w v
    exact ⟨busy .w8, busy .w16, busy .w32, busy .w64, busy .wp⟩

/-! ## The byte on offer -/

theorem moreFollows_iff {r : Val} : moreFollows r = true ↔ 128 ≤ r.toNat := by
  have hhigh : (r.extractLsb' 7 57).toNat = r.toNat / 128 := by
    rw [BitVec.extractLsb'_toNat, Nat.shiftRight_eq_div_pow]
    omega
  have hzero : (0 : BitVec 57).toNat = 0 := rfl
  rw [moreFollows, bne_iff_ne, ne_eq, BitVec.toNat_eq, hhigh, hzero]
  omega

theorem moreFollows_eq_false_iff {r : Val} : moreFollows r = false ↔ r.toNat < 128 := by
  rw [← Bool.not_eq_true, moreFollows_iff, Nat.not_le]

/-- The continuation bit weighs 128 (R45). -/
theorem toNat_byteOf (c : Bool) (g : BitVec 7) : (byteOf c g).toNat = 128 * c.toNat + g.toNat := by
  cases c <;> revert g <;> decide

@[simp] theorem toNat_lowGroup (r : Val) : (lowGroup r).toNat = r.toNat % 128 := by simp [lowGroup]

theorem emitByte_of_more {r : Val} (h : 128 ≤ r.toNat) : emitByte r = BitVec.ofNat 8 (128 + r.toNat % 128) := by
  refine BitVec.eq_of_toNat_eq ?_
  rw [emitByte, toNat_byteOf, moreFollows_iff.mpr h, toNat_lowGroup, BitVec.toNat_ofNat, Bool.toNat_true]
  omega

theorem emitByte_of_last {r : Val} (h : r.toNat < 128) : emitByte r = BitVec.ofNat 8 r.toNat := by
  refine BitVec.eq_of_toNat_eq ?_
  rw [emitByte, toNat_byteOf, moreFollows_eq_false_iff.mpr h, toNat_lowGroup, BitVec.toNat_ofNat, Bool.toNat_false]
  omega

theorem outLast_emitByte (r : Val) : outLast (emitByte r) = !moreFollows r := by rw [outLast, continues_emitByte]

theorem ushiftRight_groupBits_eq_ofNat (r : Val) : r >>> Config.groupBits = BitVec.ofNat 64 (r.toNat / 128) := by
  refine BitVec.eq_of_toNat_eq ?_
  have hpow : 2 ^ Config.groupBits = 128 := rfl
  rw [BitVec.toNat_ushiftRight, Nat.shiftRight_eq_div_pow, hpow, BitVec.toNat_ofNat,
    Nat.mod_eq_of_lt ((Nat.div_le_self _ _).trans_lt r.isLt)]

/-! ## `ENC_EMIT` -/

theorem encEmit_of_more {s : State} (hrun : s.encState = .run) (h : 128 ≤ s.encRem.toNat) :
    encEmit s = .next (s.emit .run (s.encRem >>> Config.groupBits) (emitByte s.encRem)) :=
  encEmit_next.mpr ⟨hrun, .inl ⟨moreFollows_iff.mpr h, rfl⟩⟩

theorem encEmit_of_last {s : State} (hrun : s.encState = .run) (h : s.encRem.toNat < 128) :
    encEmit s = .next (s.emit .idle 0 (emitByte s.encRem)) :=
  encEmit_next.mpr ⟨hrun, .inr ⟨moreFollows_eq_false_iff.mpr h, rfl⟩⟩

theorem encEmit_of_idle {s : State} (h : s.encState = .idle) : encEmit s = .refused .encNotRunning := by
  rw [encEmit, h]

theorem outValid_iff {s : State} : s.outValid = true ↔ s.encState = .run := beq_iff_eq

/-- Every emit appends and hands over the byte on offer (R33). -/
theorem encEmit_takes_outByte {s : State} (hrun : s.encState = .run) :
    ∃ t, encEmit s = .next t ∧ t.out = s.out ++ [s.outByte] ∧ t.seen.emitted = some (s.outByte, outLast s.outByte) := by
  obtain h | h := Nat.lt_or_ge s.encRem.toNat 128
  · exact ⟨_, encEmit_of_last hrun h, rfl, rfl⟩
  · exact ⟨_, encEmit_of_more hrun h, rfl, rfl⟩

/-- Settles O18: the two writes of `encEmit_of_more` and `encEmit_of_last`, with the byte, its `out_last` and the shift as
numbers. -/
theorem encodeEmitsOneByte : Obligations.EncodeEmitsOneByte := by
  refine fun s => ⟨fun hrun h => ?_, fun hrun h => ?_, encEmit_of_idle, outValid_iff, encEmit_takes_outByte⟩
  · rw [encEmit_of_more hrun h, State.emit, outLast_emitByte, moreFollows_iff.mpr h, emitByte_of_more h,
      ushiftRight_groupBits_eq_ofNat, hrun, Bool.not_true]
  · rw [encEmit_of_last hrun h, State.emit, outLast_emitByte, moreFollows_eq_false_iff.mpr h, emitByte_of_last h,
      Bool.not_false]

end Sys2Proof.Machine
end

section
/-! Proofs about the outputs of the five ENC operations (41_encode.md R83 to R87). -/

namespace Sys2Proof.Machine

/-! ## What all five widths have in common -/

theorem opEnc_eq_enc64 {p : Nat} (hp : p ≤ 64) (w : Width) (v : Val) :
    opEnc p w v = enc64 (BitVec.ofNat 64 (v.toNat % 2 ^ widthBits p w)) := by
  rw [opEnc, widen_eq_ofNat (widthBits_le hp w)]

theorem length_opEnc (p : Nat) (w : Width) (v : Val) : (opEnc p w v).length = opSize p w v := length_enc64 _

/-- The word, the output and the range of its length. -/
theorem encCommand_outputs {p : Nat} (hpos : 1 ≤ p) (hp : p ≤ 64) (w : Width) (v : Val) (x : List Byte) :
    decode ⟨wordOf .enc w, v, x⟩ = .ok (instrOf .enc w v x) ∧
    opEnc p w v = enc64 (BitVec.ofNat 64 (v.toNat % 2 ^ widthBits p w)) ∧
    1 ≤ (opEnc p w v).length ∧ (opEnc p w v).length ≤ ceilSeven (widthBits p w) := by
  rw [length_opEnc]
  exact ⟨decode_wordOf .enc w v x, opEnc_eq_enc64 hp w v, opSize_pos p w v, opSize_le_ceilSeven hpos hp w v⟩

/-! ## The last byte -/

theorem toNat_groupAt (v : Val) (i : Nat) : (groupAt v i).toNat = v.toNat / 2 ^ (7 * i) % 128 := by
  simp [groupAt, Nat.shiftRight_eq_div_pow]

/-- Where byte `i` is the last the value leaves room for, it is the rest of the value, and not zero if it is not the first. -/
theorem toNat_last_enc64 {v : Val} {i : Nat} {b : Byte} (hi : 0 < i) (hv : v.toNat < 2 ^ (7 * (i + 1)))
    (hb : (enc64 v)[i]? = some b) : b.toNat = v.toNat / 2 ^ (7 * i) ∧ 1 ≤ b.toNat := by
  obtain ⟨hsize, rfl⟩ := getElem?_enc64_eq_some.mp hb
  have hlast : ¬ i + 1 < size64 v := ((size64_le_iff i.succ_pos).mpr hv).not_gt
  have hlow : 2 ^ (7 * i) ≤ v.toNat := Nat.le_of_not_lt (mt (size64_le_iff hi).mpr hsize.not_ge)
  have hlt : v.toNat / 2 ^ (7 * i) < 128 := by
    rw [Nat.div_lt_iff_lt_mul (Nat.two_pow_pos _)]
    rwa [Nat.mul_succ, Nat.add_comm, Nat.pow_add] at hv
  rw [toNat_byteOf, toNat_groupAt, decide_eq_false hlast, Nat.mod_eq_of_lt hlt, Bool.toNat_false, Nat.mul_zero, Nat.zero_add]
  exact ⟨rfl, Nat.div_pos hlow (Nat.two_pow_pos _)⟩

theorem toNat_last_opEnc {p i : Nat} {w : Width} {v : Val} {b : Byte} (hp : p ≤ 64) (hi : 0 < i)
    (hw : widthBits p w ≤ 7 * (i + 1)) (hb : (opEnc p w v)[i]? = some b) :
    b.toNat = v.toNat % 2 ^ widthBits p w / 2 ^ (7 * i) ∧ 1 ≤ b.toNat := by
  rw [← toNat_widen (widthBits_le hp w)]
  refine toNat_last_enc64 hi ?_ hb
  rw [toNat_widen (widthBits_le hp w)]
  exact (Nat.mod_lt _ (Nat.two_pow_pos _)).trans_le (Nat.pow_le_pow_right (by decide) hw)

/-! ## Width 8 written out, and the tenth byte of width 64 -/

/-- Byte `i` of an encoding as a number: the continuation bit and the group of R47. -/
theorem byteOf_groupAt_eq_ofNat {c : Bool} {v : Val} {i n : Nat}
    (h : 128 * c.toNat + v.toNat / 2 ^ (7 * i) % 128 = n % 2 ^ 8) : byteOf c (groupAt v i) = BitVec.ofNat 8 n :=
  BitVec.eq_of_toNat_eq (by rw [toNat_byteOf, toNat_groupAt, h, BitVec.toNat_ofNat])

theorem enc64_of_size_one {v : Val} (h : size64 v = 1) : enc64 v = [byteOf false (groupAt v 0)] := by
  rw [enc64, h]
  rfl

theorem enc64_of_size_two {v : Val} (h : size64 v = 2) :
    enc64 v = [byteOf true (groupAt v 0), byteOf false (groupAt v 1)] := by
  rw [enc64, h]
  rfl

/-- R83: the low byte of the port as it is, closed by `0x01` where its bit 7 is set. -/
theorem opEnc_w8 (p : Nat) (v : Val) : opEnc p .w8 v =
    if v.toNat % 2 ^ 8 < 128 then [BitVec.ofNat 8 v.toNat] else [BitVec.ofNat 8 v.toNat, 0x01#8] := by
  have hwiden : (widen 8 v).toNat = v.toNat % 2 ^ 8 := toNat_widen (by decide) v
  have hpos := size64_pos (widen 8 v)
  have hone : size64 (widen 8 v) ≤ 1 ↔ v.toNat % 2 ^ 8 < 128 := by
    rw [size64_le_iff Nat.one_pos, hwiden]
    exact Iff.rfl
  have htwo : size64 (widen 8 v) ≤ 2 := by
    rw [size64_le_iff Nat.two_pos, hwiden]
    omega
  rw [opEnc, widthBits]
  split_ifs with h
  · rw [enc64_of_size_one (by omega), byteOf_groupAt_eq_ofNat (n := v.toNat)]
    simp only [Bool.toNat_false, hwiden]
    omega
  · rw [enc64_of_size_two (by omega), byteOf_groupAt_eq_ofNat (n := v.toNat), byteOf_groupAt_eq_ofNat (n := 1)]
    · simp only [Bool.toNat_false, hwiden]
      omega
    · simp only [Bool.toNat_true, hwiden]
      omega

@[simp] theorem opEnc_w64 (p : Nat) (v : Val) : opEnc p .w64 v = enc64 v := by rw [opEnc, widthBits, widen_sixtyFour]

theorem size64_eq_ten_iff {v : Val} : size64 v = 10 ↔ v.getLsbD 63 = true := by
  have htop : v.getLsbD 63 = decide (2 ^ 63 ≤ v.toNat) :=
    (BitVec.msb_eq_getLsbD_last v).symm.trans (BitVec.msb_eq_decide v)
  have hle := size64_le_ten v
  rw [htop, decide_eq_true_iff, ← Nat.not_lt, ← size64_le_iff (n := 9) (by decide)]
  omega

/-! ## R83 to R87 -/

/-- Settles O16: every width is `encCommand_outputs`, with `opEnc_w8` for the bytes of W8, `toNat_last_opEnc` for the last byte of
the others; no corner case depends on the free PBITS, so they all evaluate. -/
theorem encodeOutputsPerWidth : Obligations.EncodeOutputsPerWidth := by
  refine ⟨fun p v x hpos hp => ?_, fun p => ?_⟩
  · obtain ⟨hword8, hout8, -, -⟩ := encCommand_outputs hpos hp .w8 v x
    obtain ⟨hword16, hout16, hpos16, hle16⟩ := encCommand_outputs hpos hp .w16 v x
    obtain ⟨hword32, hout32, hpos32, hle32⟩ := encCommand_outputs hpos hp .w32 v x
    obtain ⟨hword64, -, hpos64, hle64⟩ := encCommand_outputs hpos hp .w64 v x
    obtain ⟨hwordP, houtP, hposP, hleP⟩ := encCommand_outputs hpos hp .wp v x
    simp only [widthBits] at hle16 hle32 hle64
    refine ⟨⟨hword8, hout8, opEnc_w8 p v⟩, ⟨hword16, hout16, hpos16, hle16, fun b hb => ?_⟩,
      ⟨hword32, hout32, hpos32, hle32, fun b hb => ?_⟩, ⟨hword64, opEnc_w64 p v, hpos64, hle64, ?_, fun b hb => ?_⟩,
      hwordP, houtP, hposP, hleP, rfl, rfl⟩
    · obtain ⟨hval, hone⟩ : b.toNat = v.toNat % 2 ^ 16 / 2 ^ 14 ∧ 1 ≤ b.toNat :=
        toNat_last_opEnc hp (by decide) (by decide : 16 ≤ 21) hb
      exact ⟨hval, hone, by omega⟩
    · obtain ⟨hval, hone⟩ : b.toNat = v.toNat % 2 ^ 32 / 2 ^ 28 ∧ 1 ≤ b.toNat :=
        toNat_last_opEnc hp (by decide) (by decide : 32 ≤ 35) hb
      exact ⟨hval, hone, by omega⟩
    · rw [opEnc_w64, length_enc64, size64_eq_ten_iff]
    · obtain ⟨hval, hone⟩ : b.toNat = v.toNat % 2 ^ 64 / 2 ^ 63 ∧ 1 ≤ b.toNat :=
        toNat_last_opEnc hp (by decide) (by decide : 64 ≤ 70) hb
      have hb1 : b.toNat = 1 := by omega
      exact BitVec.eq_of_toNat_eq hb1
  · simp only [opEnc, widthBits]
    decide

end Sys2Proof.Machine
end

section
/-! Proofs about the decode loop (42_decode.md R100 to R105): where it stops, and its closed form. -/

namespace Sys2Proof.Machine

/-! ## Where the closed form stops -/

theorem forall_continues_take_succ {input : List Byte} {n : Nat} :
    (∀ b ∈ input.take (n + 1), continues b = true) ↔
      (∀ b ∈ input.take n, continues b = true) ∧ ∀ b, input[n]? = some b → continues b = true := by
  simp [List.take_add_one, or_imp, forall_and]

theorem terminatorIndex_eq_none_iff {input : List Byte} :
    terminatorIndex input = none ↔ ∀ b ∈ input.take 10, continues b = true := by
  simp only [terminatorIndex, Config.capGroups_eq, List.findIdx?_eq_none_iff, Bool.not_eq_false']

theorem terminatorIndex_eq_some {input : List Byte} {n : Nat} {b : Byte} (hn : n < 10)
    (hpre : ∀ b ∈ input.take n, continues b = true) (hb : input[n]? = some b) (hstop : continues b = false) :
    terminatorIndex input = some n := by
  obtain ⟨hlen, rfl⟩ := List.getElem?_eq_some_iff.mp hb
  refine List.findIdx?_eq_some_iff_getElem.mpr ⟨by simp [hn, hlen], by simp [hstop], fun j hj => ?_⟩
  have hmem : input[j] ∈ input.take n := List.mem_take_iff_getElem.mpr ⟨j, by omega, rfl⟩
  simp [hpre _ hmem]

/-- Event T of R101. -/
theorem closedCount_of_terminator {input : List Byte} {n : Nat} {b : Byte} (hn : n < 10)
    (hpre : ∀ b ∈ input.take n, continues b = true) (hb : input[n]? = some b) (hstop : continues b = false) :
    closedCount input = n + 1 := by
  rw [closedCount, terminatorIndex_eq_some hn hpre hb hstop]

/-- Event K of R101, or X where the input is shorter. -/
theorem closedCount_of_continues {input : List Byte} (h : ∀ b ∈ input.take 10, continues b = true) :
    closedCount input = min input.length 10 := by
  rw [closedCount, terminatorIndex_eq_none_iff.mpr h]

/-- Event X of R101. -/
theorem closedCount_of_short {input : List Byte} (hlen : input.length < 10) (h : ∀ b ∈ input, continues b = true) :
    closedCount input = input.length := by
  rw [closedCount_of_continues fun b hb => h b (List.mem_of_mem_take hb), Nat.min_eq_left hlen.le]

theorem closedCount_eq_zero_iff {input : List Byte} : closedCount input = 0 ↔ input = [] := by
  cases input with
  | nil => exact ⟨fun _ => rfl, fun _ => rfl⟩
  | cons b rest =>
    rw [closedCount]
    cases terminatorIndex (b :: rest) <;> simp

/-! ## The loop -/

theorem stopsAfter_eq_true_iff {n : Nat} {b : Byte} : stopsAfter n b = true ↔ continues b = false ∨ n + 1 = 10 := by
  simp [stopsAfter]

theorem orGroups_succ_of_getElem? {input : List Byte} {n : Nat} {b : Byte} (hb : input[n]? = some b) :
    mergeGroup (orGroups input n) n b = orGroups input (n + 1) := by
  rw [mergeGroup, orGroups, List.getD_eq_getElem?_getD, hb, Option.getD_some]

/-- The loop after `n` continuation bytes, as R23 item 4 has it, ends where the closed form does. -/
theorem decodeLoop_drop {input : List Byte} {n : Nat} (hn : n < 10) (hlen : n ≤ input.length)
    (hpre : ∀ b ∈ input.take n, continues b = true) :
    decodeLoop (orGroups input n) n (input.drop n) = (orGroups input (closedCount input), closedCount input) := by
  induction hrest : input.drop n generalizing n with
  | nil =>
    obtain rfl : n = input.length := Nat.le_antisymm hlen (List.drop_eq_nil_iff.mp hrest)
    rw [List.take_length] at hpre
    rw [decodeLoop_nil, closedCount_of_short hn hpre]
  | cons b rest ih =>
    have hb : input[n]? = some b := by simpa [hrest] using (List.getElem?_drop (xs := input) (i := n) (j := 0)).symm
    have htail : input.drop (n + 1) = rest := by rw [← List.tail_drop, hrest, List.tail_cons]
    have hlt : n < input.length := (List.getElem?_eq_some_iff.mp hb).1
    rw [decodeLoop_cons, orGroups_succ_of_getElem? hb]
    by_cases hstop : continues b = false
    · rw [if_pos (stopsAfter_eq_true_iff.mpr (.inl hstop)), closedCount_of_terminator hn hpre hb hstop]
    · have hpre' : ∀ c ∈ input.take (n + 1), continues c = true := by
        refine forall_continues_take_succ.mpr ⟨hpre, fun c hc => ?_⟩
        obtain rfl : b = c := Option.some.inj (hb.symm.trans hc)
        exact Bool.eq_true_of_not_eq_false hstop
      by_cases hcap : n + 1 = 10
      · have hcount : closedCount input = n + 1 := by
          rw [closedCount_of_continues (hcap ▸ hpre')]
          omega
        rw [if_pos (stopsAfter_eq_true_iff.mpr (.inr hcap)), hcount]
      · rw [if_neg (by simp [stopsAfter_eq_true_iff, hstop, hcap])]
        exact ih (by omega) hlt hpre' htail

/-- Settles O21: `decodeLoop_drop` from the first byte on. -/
theorem decodeLoopIsTheClosedForm : Obligations.DecodeLoopIsTheClosedForm :=
  fun input => decodeLoop_drop (n := 0) (by decide) (Nat.zero_le _) (by simp)

theorem dec64_eq (input : List Byte) : dec64 input = (orGroups input (closedCount input), closedCount input) :=
  decodeLoopIsTheClosedForm input

/-- Settles O23: with no terminator and no cap the closed form counts the whole input; it counts nothing of the empty input
only. -/
theorem shortInputByDecisionD8 : Obligations.ShortInputByDecisionD8 := by
  refine ⟨fun input hlen hcont => ?_, by decide, by decide, rfl, fun input => ?_⟩
  · rw [dec64_eq, closedCount_of_short hlen hcont]
  · rw [dec64_eq, closedCount_eq_zero_iff]

end Sys2Proof.Machine
end

section
/-! Proofs about the bits of a decoded value (30_encoding.md R48, 42_decode.md R106 and R121): group `i` of the input fills value
bits `7 * i` to `7 * i + 6` and no others. -/

namespace Sys2Proof.Machine

/-! ## Where the groups land -/

theorem getLsbD_groupOf {j : Nat} (h : j < 7) (b : Byte) : (groupOf b).getLsbD j = b.getLsbD j := by
  simp [groupOf, h]

theorem getLsbD_placeGroup {k : Nat} (hk : k < 64) (n : Nat) (b : Byte) :
    (placeGroup n b).getLsbD k = (decide (k / 7 = n) && b.getLsbD (k % 7)) := by
  by_cases hn : k / 7 = n
  · have hlow : ¬ k < 7 * n := by omega
    have hsub : k - 7 * n = k % 7 := by omega
    have hmod : k % 7 < 7 := Nat.mod_lt _ (by decide)
    simp [placeGroup, hk, hn, hlow, hsub, getLsbD_groupOf hmod]
  · by_cases hlow : k < 7 * n
    · simp [placeGroup, hn, hlow]
    · have hhigh : 7 ≤ k - 7 * n := by omega
      simp [placeGroup, hn, BitVec.getLsbD_of_ge _ _ hhigh]

theorem getLsbD_orGroups {k : Nat} (hk : k < 64) (input : List Byte) (n : Nat) :
    (orGroups input n).getLsbD k = (decide (k / 7 < n) && (input.getD (k / 7) 0).getLsbD (k % 7)) := by
  induction n with
  | zero => simp [orGroups]
  | succ n ih =>
    rw [orGroups, BitVec.getLsbD_or, ih, getLsbD_placeGroup hk]
    obtain hlt | rfl | hgt := Nat.lt_trichotomy (k / 7) n
    · simp [hlt, hlt.ne, Nat.lt_succ_of_lt hlt]
    · simp
    · simp [hgt.not_gt, hgt.ne', (Nat.succ_le_of_lt hgt).not_gt]

/-! ## The round trip -/

/-- The bytes of an encoding carry the groups of the value, whatever follows them. -/
theorem orGroups_enc64_append (v : Val) (x : List Byte) : orGroups (enc64 v ++ x) (size64 v) = v := by
  refine BitVec.eq_of_getLsbD_eq fun k hk => ?_
  have hbit : (groupAt v (k / 7)).getLsbD (k % 7) = v.getLsbD k := by
    rw [getLsbD_groupAt (Nat.mod_lt _ (by decide)), Nat.div_add_mod]
  rw [getLsbD_orGroups hk, ← hbit]
  by_cases hsize : k / 7 < size64 v
  · have hbyte : (enc64 v ++ x)[k / 7]? = some (byteOf (decide (k / 7 + 1 < size64 v)) (groupAt v (k / 7))) := by
      rw [List.getElem?_append_left (by rwa [length_enc64])]
      exact getElem?_enc64_eq_some.mpr ⟨hsize, rfl⟩
    rw [List.getD_eq_getElem?_getD, hbyte, Option.getD_some, getLsbD_byteOf (Nat.mod_lt _ (by decide)), decide_eq_true hsize,
      Bool.true_and]
  · rw [groupAt_eq_zero (Nat.le_of_not_lt hsize), decide_eq_false hsize, Bool.false_and]
    exact BitVec.getLsbD_zero.symm

/-- The last byte of an encoding is the first terminator, whatever follows it. -/
theorem closedCount_enc64_append (v : Val) (x : List Byte) : closedCount (enc64 v ++ x) = size64 v := by
  have hpos := size64_pos v
  have hle := size64_le_ten v
  obtain ⟨n, hn⟩ : ∃ n, size64 v = n + 1 := ⟨size64 v - 1, by omega⟩
  have hlast : (enc64 v ++ x)[n]? = some (byteOf (decide (n + 1 < size64 v)) (groupAt v n)) := by
    rw [List.getElem?_append_left (by rw [length_enc64]; omega)]
    exact getElem?_enc64_eq_some.mpr ⟨by omega, rfl⟩
  have hpre : ∀ b ∈ (enc64 v ++ x).take n, continues b = true := by
    intro b hb
    rw [List.take_append_of_le_length (by rw [length_enc64]; omega)] at hb
    obtain ⟨i, hi, rfl⟩ := List.mem_take_iff_getElem.mp hb
    obtain ⟨-, hbyte⟩ := getElem?_enc64_eq_some.mp (List.getElem?_eq_getElem (Nat.lt_min.mp hi).2)
    rw [hbyte, continues_byteOf, decide_eq_true_iff]
    omega
  rw [hn]
  refine closedCount_of_terminator (by omega) hpre hlast ?_
  rw [continues_byteOf, decide_eq_false_iff_not]
  omega

/-- Settles O27: by the closed form of the loop, which stops on the last byte of the encoding with all its groups placed. The
over-long zero shows that the converse fails. -/
theorem decodeOfEncodeIsTheValue : Obligations.DecodeOfEncodeIsTheValue := by
  refine ⟨fun v x => ?_, [0x80#8, 0x00#8], by decide⟩
  rw [dec64_eq, closedCount_enc64_append, orGroups_enc64_append]

/-! ## Merging is addition -/

/-- The next group lands where the groups before it left zeros (R121). -/
theorem orGroups_and_placeGroup (input : List Byte) (n : Nat) (b : Byte) : orGroups input n &&& placeGroup n b = 0 := by
  refine BitVec.eq_of_getLsbD_eq fun k hk => ?_
  rw [BitVec.getLsbD_and, getLsbD_orGroups hk, getLsbD_placeGroup hk]
  by_cases hn : k / 7 = n <;> simp [hn]

theorem or_eq_xor_of_and_eq_zero {x y : Val} (h : x &&& y = 0) : x ||| y = x ^^^ y := by
  refine BitVec.eq_of_getLsbD_eq fun k hk => ?_
  have hbit : (x.getLsbD k && y.getLsbD k) = false := by rw [← BitVec.getLsbD_and, h]; exact BitVec.getLsbD_zero
  rw [BitVec.getLsbD_or, BitVec.getLsbD_xor]
  generalize x.getLsbD k = a, y.getLsbD k = b at hbit
  revert a b
  decide

/-- `DecInv` in RUN (R23 item 4). -/
theorem decInv_of_run {s : State} (hrun : s.decState = .run) : DecInv s ↔
    s.decCnt.val < 10 ∧ s.decCnt.val ≤ s.inp.length ∧ (∀ b ∈ s.inp.take s.decCnt.val, continues b = true) ∧
      s.decAcc = orGroups s.inp s.decCnt.val := by
  rw [DecInv, hrun]

/-- Settles O31: in RUN the accumulator holds the groups before `dec_cnt`, which share no bit with the one placed there. -/
theorem mergeIsAddition : Obligations.MergeIsAddition := by
  intro s b hrun hinv
  obtain ⟨-, -, -, hacc⟩ := (decInv_of_run hrun).mp hinv
  have hdisjoint : s.decAcc &&& placeGroup s.decCnt.val b = 0 := by rw [hacc, orGroups_and_placeGroup]
  exact ⟨(BitVec.add_eq_or_of_and_eq_zero _ _ hdisjoint).symm, or_eq_xor_of_and_eq_zero hdisjoint⟩

end Sys2Proof.Machine
end

section
/-! Proofs about the results of the five DEC operations (42_decode.md R107 to R111). -/

namespace Sys2Proof.Machine

theorem narrow_eq_ofNat {bits : Nat} (h : bits ≤ 64) (acc : Val) :
    narrow bits acc = BitVec.ofNat 64 (acc.toNat % 2 ^ bits) :=
  widen_eq_ofNat h acc

@[simp] theorem narrow_sixtyFour (acc : Val) : narrow 64 acc = acc := widen_sixtyFour acc

theorem opDec_eq {p : Nat} (hp : p ≤ 64) (w : Width) (x : List Byte) :
    opDec p w x = (BitVec.ofNat 64 ((dec64 x).1.toNat % 2 ^ widthBits p w), (dec64 x).2) := by
  rw [opDec, narrow_eq_ofNat (widthBits_le hp w)]

@[simp] theorem opDec_w64 (p : Nat) (x : List Byte) : opDec p .w64 x = dec64 x := by
  rw [opDec, widthBits, narrow_sixtyFour]

/-- The word and the result, at every width alike. -/
theorem decCommand_outputs {p : Nat} (hp : p ≤ 64) (w : Width) (v : Val) (x : List Byte) :
    decode ⟨wordOf .dec w, v, x⟩ = .ok (instrOf .dec w v x) ∧
    opDec p w x = (BitVec.ofNat 64 ((dec64 x).1.toNat % 2 ^ widthBits p w), (dec64 x).2) :=
  ⟨decode_wordOf .dec w v x, opDec_eq hp w x⟩

/-- The corner cases and examples of R107: the free PBITS plays no part, so they evaluate. -/
theorem opDec_w8_examples (p : Nat) :
    opDec p .w8 [0xFF#8, 0x03#8] = (0xFF, 2) ∧ opDec p .w8 [0x80#8, 0x02#8] = (0x00, 2) ∧
    opDec p .w8 (List.replicate 10 0xFF#8) = (0xFF, 10) ∧ opDec p .w8 [0xFF#8, 0x01#8] = (0xFF, 2) := by
  simp only [opDec, widthBits]
  decide

/-- Those of R108. -/
theorem opDec_w16_examples (p : Nat) :
    opDec p .w16 [0xFF#8, 0xFF#8, 0x03#8] = (0xFFFF, 3) ∧ opDec p .w16 [0xFF#8, 0xFF#8, 0x07#8] = (0xFFFF, 3) ∧
    opDec p .w16 [0xE5#8, 0x8E#8, 0x26#8] = (0x8765, 3) ∧ opDec p .w16 [0xAC#8, 0x02#8] = (300, 2) := by
  simp only [opDec, widthBits]
  decide

/-- Those of R109. -/
theorem opDec_w32_examples (p : Nat) :
    opDec p .w32 [0xFF#8, 0xFF#8, 0xFF#8, 0xFF#8, 0x0F#8] = (0xFFFFFFFF, 5) ∧
    opDec p .w32 [0xFF#8, 0xFF#8, 0xFF#8, 0xFF#8, 0x1F#8] = (0xFFFFFFFF, 5) ∧
    opDec p .w32 (List.replicate 10 0xFF#8) = (0xFFFFFFFF, 10) ∧
    opDec p .w32 [0xEF#8, 0xFD#8, 0xB6#8, 0xF5#8, 0x0D#8] = (0xDEADBEEF, 5) := by
  simp only [opDec, widthBits]
  decide

/-- That of R110. -/
theorem opDec_w64_example (p : Nat) :
    opDec p .w64 (List.replicate 9 0xFF#8 ++ [0x01#8]) = (0xFFFFFFFFFFFFFFFF, 10) := by
  rw [opDec_w64]
  decide

/-- Settles O30: every width is `decCommand_outputs`, with the examples of its rule; WP is the width its PBITS names. -/
theorem decodeOutputsPerWidth : Obligations.DecodeOutputsPerWidth := by
  intro p v x _ hp
  obtain ⟨hword8, hout8⟩ := decCommand_outputs hp .w8 v x
  obtain ⟨hword16, hout16⟩ := decCommand_outputs hp .w16 v x
  obtain ⟨hword32, hout32⟩ := decCommand_outputs hp .w32 v x
  obtain ⟨hword64, -⟩ := decCommand_outputs hp .w64 v x
  obtain ⟨hwordP, houtP⟩ := decCommand_outputs hp .wp v x
  exact ⟨⟨hword8, hout8, opDec_w8_examples p⟩, ⟨hword16, hout16, opDec_w16_examples p⟩,
    ⟨hword32, hout32, opDec_w32_examples p⟩, ⟨hword64, opDec_w64 p x, opDec_w64_example p⟩,
    hwordP, houtP, rfl, rfl, by decide⟩

end Sys2Proof.Machine
end

section
/-! Proofs about the decoder's steps (42_decode.md R112 to R116): what `DEC_START`, `DEC_BYTE` and `DEC_END` write, and where they
do not exist. -/

namespace Sys2Proof.Machine

/-! ## `DEC_START` -/

theorem decStart_of_ready {s : State} (h : s.decState = .idle ∨ s.decState = .done) (w : Width) (x : List Byte) :
    decStart w x s = .next (s.loadDecoder w x) := by
  refine decStart_next.mpr ⟨?_, rfl⟩
  obtain h | h := h <;> rw [h] <;> decide

theorem decStart_of_run {s : State} (h : s.decState = .run) (w : Width) (x : List Byte) : decStart w x s = .refused .decBusy := by
  rw [decStart, h]

/-- Settles O32: each operation is `decStart` at its width, which outside RUN loads the decoder and in RUN refuses. -/
theorem decodeStartClearsAndLatches : Obligations.DecodeStartClearsAndLatches := by
  refine ⟨fun x s hready => ?_, fun x s hrun => ?_⟩
  · have start (w : Width) : decStart w x s = .next (s.loadDecoder w x) := decStart_of_ready hready w x
    exact ⟨start .w8, start .w16, start .w32, start .w64, start .wp⟩
  · have busy (w : Width) : decStart w x s = .refused .decBusy := decStart_of_run hrun w x
    exact ⟨busy .w8, busy .w16, busy .w32, busy .w64, busy .wp⟩

/-! ## `DEC_BYTE` -/

/-- The terminator test of R101, on the byte as a number. -/
theorem continues_eq_false_iff {b : Byte} : continues b = false ↔ b.toNat < 128 := by
  revert b; decide

/-- The group is the byte modulo 128, cut to 64 bits where it lands (R48). -/
theorem placeGroup_eq_ofNat (n : Nat) (b : Byte) : placeGroup n b = BitVec.ofNat 64 (b.toNat % 128 * 2 ^ (7 * n)) := by
  have hgroup : (groupOf b).toNat = b.toNat % 128 := by simp [groupOf]
  have hfits : b.toNat % 128 < 2 ^ 70 := (Nat.mod_lt _ (by decide)).trans (by decide)
  refine BitVec.eq_of_toNat_eq ?_
  rw [placeGroup, BitVec.toNat_setWidth, BitVec.toNat_shiftLeft, BitVec.toNat_setWidth, hgroup, Nat.mod_eq_of_lt hfits,
    Nat.shiftLeft_eq, BitVec.toNat_ofNat, Config.groupBits_eq, Nat.mod_mod_of_dvd _ (Nat.pow_dvd_pow 2 (by decide))]

theorem phaseAfter_eq (n : Nat) (b : Byte) :
    phaseAfter n b = if b.toNat < 128 ∨ n + 1 = 10 then .done else .run := by
  simp only [phaseAfter, stopsAfter_eq_true_iff, continues_eq_false_iff]

theorem decByte_of_run {s : State} {b : Byte} (hrun : s.decState = .run) (hb : s.inp[s.decCnt.val]? = some b)
    (hn : s.decCnt.val < 10) : decByte s = .next (s.consume (phaseAfter s.decCnt.val b) (mergeGroup s.decAcc s.decCnt.val b)
      ⟨s.decCnt.val + 1, Nat.succ_lt_succ hn⟩) :=
  decByte_next.mpr ⟨hrun, b, hb, hn, rfl⟩

/-- Settles O33: the writes of `decByte_of_run`, with the group and the stop test as numbers. -/
theorem decodeByteMergesOneGroup : Obligations.DecodeByteMergesOneGroup := by
  intro s b hrun hb hn
  refine ⟨_, decByte_of_run hrun hb hn, ?_, rfl, phaseAfter_eq _ _, rfl, rfl, rfl, rfl, rfl⟩
  rw [State.consume_decAcc, mergeGroup, placeGroup_eq_ofNat]

theorem decByte_of_not_run {s : State} (h : s.decState = .idle ∨ s.decState = .done) :
    decByte s = .refused .decNotRunning := by
  obtain h | h := h <;> rw [decByte, h]

theorem decByte_of_no_byte {s : State} (hrun : s.decState = .run) (hb : s.inByte? = none) :
    decByte s = .refused .noByteLeft := by
  rw [decByte, hrun, hb]

/-! ## `DEC_END` -/

theorem decEnd_of_end {s : State} (hrun : s.decState = .run) (hend : s.decCnt.val = s.inp.length) :
    decEnd s = .next s.finishDecode :=
  decEnd_next.mpr ⟨hrun, hend, rfl⟩

theorem decEnd_of_byte_left {s : State} (hrun : s.decState = .run) (hleft : s.decCnt.val ≠ s.inp.length) :
    decEnd s = .refused .notAtEnd := by
  rw [decEnd, hrun]
  exact if_neg hleft

theorem decEnd_of_not_run {s : State} (h : s.decState = .idle ∨ s.decState = .done) : decEnd s = .refused .decNotRunning := by
  obtain h | h := h <;> rw [decEnd, h]

/-- Settles O34: `decEnd` by phase and count; where it is accepted the invariant speaks of the whole input. -/
theorem decodeEndOnlyAtTheEnd : Obligations.DecodeEndOnlyAtTheEnd := by
  refine ⟨fun s => ⟨decEnd_of_end, decEnd_of_byte_left, decEnd_of_not_run⟩, fun s t hinv hend => ?_, fun s w => ?_⟩
  · obtain ⟨hrun, hlen, -⟩ := decEnd_next.mp hend
    obtain ⟨hcap, -, hcont, -⟩ := (decInv_of_run hrun).mp hinv
    rw [hlen, List.take_length] at hcont
    exact ⟨by omega, hcont⟩
  · exact ⟨decByte_of_no_byte rfl rfl, decEnd_of_end rfl rfl⟩

/-! ## Bytes and end marks outside RUN -/

theorem inReady_iff {s : State} : s.inReady = true ↔ s.decState = .run := beq_iff_eq

theorem step_offering {s : State} {m : Move} {rest : List Moment} (h : s.agenda = offering m :: rest) :
    step s = takeMove m (s.withAgenda rest) :=
  step_cons h

/-- Settles O35: outside RUN both moves of the input are refused, and `settle_of_refused` drops them. -/
theorem inputAcceptedOnlyInRun : Obligations.InputAcceptedOnlyInRun := by
  refine fun s m rest => ⟨inReady_iff, fun hphase hm ha => ?_⟩
  have hstep : step s = .refused .decNotRunning := by
    rw [step_offering ha]
    obtain rfl | rfl := hm
    · exact decByte_of_not_run hphase
    · exact decEnd_of_not_run hphase
  exact ⟨hstep, settle_of_refused ha hstep⟩

end Sys2Proof.Machine
end

section
/-! Proofs about the decode result (42_decode.md R115): it is read in DONE only, and it holds there whatever HOST does until the
next `DEC.w` command or `RESET`. -/

namespace Sys2Proof.Machine

/-! ## The read -/

theorem decResult_of_done {s : State} (h : s.decState = .done) : decResult s = .next (s.sawResult s.decValue s.decCount) :=
  decResult_next.mpr ⟨h, rfl⟩

theorem decResult_of_not_done {s : State} (h : s.decState = .idle ∨ s.decState = .run) :
    decResult s = .refused .resultNotReady := by
  obtain h | h := h <;> rw [decResult, h]

/-! ## What a play keeps -/

/-- A property that every accepted moment of a class keeps, and that does not speak of HOST's agenda, holds after a play of such
moments: a moment that is not accepted is dropped with nothing changed. -/
theorem play_keeps {P : State → Prop} {ok : Moment → Prop} (hagenda : ∀ s ms, P s → P (s.withAgenda ms))
    (hmoment : ∀ s t m, P s → ok m → takeMoment m s = .next t → P t) {s : State} {ms : List Moment} (hs : P s)
    (hok : ∀ m ∈ ms, ok m) : P (play s ms) := by
  induction ms generalizing s with
  | nil => exact hagenda s [] hs
  | cons m ms ih =>
    obtain ⟨hm, hms⟩ := List.forall_mem_cons.mp hok
    rw [play_cons]
    refine ih ?_ hms
    obtain ⟨t, ht, he⟩ | ⟨-, he⟩ := settle_cases (s.withAgenda (m :: ms)) <;> rw [he]
    · rw [step_cons (State.withAgenda_agenda s _)] at ht
      exact hmoment _ t m (hagenda _ ms (hagenda s _ hs)) hm ht
    · exact hagenda _ _ (hagenda s _ hs)

/-! ## The result holds -/

/-- DEC is in DONE with this width, accumulator and count: all that the result ports show (R19). -/
def State.HoldsResult (s : State) (w : Width) (acc : Val) (n : Fin (Config.capGroups + 1)) : Prop :=
  s.decState = .done ∧ s.decW = w ∧ s.decAcc = acc ∧ s.decCnt = n

theorem State.HoldsResult.decValue_decCount {s u : State} (h : u.HoldsResult s.decW s.decAcc s.decCnt) :
    u.decValue = s.decValue ∧ u.decCount = s.decCount := by
  obtain ⟨-, hw, hacc, hcnt⟩ := h
  rw [State.decValue, State.decCount, hw, hacc, hcnt]
  exact ⟨rfl, rfl⟩

/-- In DONE only a `DEC.w` command writes the decoder's registers. -/
theorem takeMove_holdsResult {m : Move} {s t : State} {w : Width} {acc : Val} {n : Fin (Config.capGroups + 1)}
    (hs : s.HoldsResult w acc n) (hm : ∀ c, m = .command c → opField c.cmd ≠ 0b10#2) (h : takeMove m s = .next t) :
    t.HoldsResult w acc n := by
  have hrun : s.decState ≠ .run := by rw [hs.1]; decide
  cases m with
  | command c =>
    simp only [takeMove] at h
    obtain ⟨-, _, e⟩ | ⟨-, _, e⟩ | ⟨hdec, -⟩ | ⟨r, e⟩ := takeCommand_cases c s
    · cases e.symm.trans h; exact hs
    · obtain ⟨-, rfl⟩ := encStart_next.mp (e.symm.trans h); exact hs
    · exact absurd hdec (hm c rfl)
    · cases e.symm.trans h
  | encEmit => obtain ⟨-, ⟨-, rfl⟩ | ⟨-, rfl⟩⟩ := encEmit_next.mp h <;> exact hs
  | decByte => exact absurd (decByte_next.mp h).1 hrun
  | decEnd => exact absurd (decEnd_next.mp h).1 hrun
  | readResult => obtain ⟨-, rfl⟩ := decResult_next.mp h; exact hs
  | readStatus => cases h; exact hs

/-- HOST's moments without `RESET` and without a `DEC.w` command leave the result as it is. -/
theorem play_holdsResult {s : State} {ms : List Moment} (hdone : s.decState = .done)
    (hms : ∀ m ∈ ms, m.reset = false ∧ ∀ c, m.move = some (.command c) → opField c.cmd ≠ 0b10#2) :
    (play s ms).HoldsResult s.decW s.decAcc s.decCnt := by
  refine play_keeps (P := fun u => u.HoldsResult s.decW s.decAcc s.decCnt) (fun _ _ h => h) (fun u t m hu hm h => ?_)
    ⟨hdone, rfl, rfl, rfl⟩ hms
  obtain ⟨reset, mv⟩ := m
  obtain ⟨rfl, hcommand⟩ : reset = false ∧ _ := hm
  cases mv with
  | none => cases h; exact hu
  | some mv => exact takeMove_holdsResult hu (fun c hc => hcommand c (congrArg some hc)) h

/-- Settles O36: the read shows the result ports and nothing else, and `play_holdsResult` has them unchanged. -/
theorem resultReadOnlyInDone : Obligations.ResultReadOnlyInDone := by
  refine ⟨fun s => ⟨fun hdone => ?_, decResult_of_not_done⟩, fun s ms hdone hms => ?_⟩
  · rw [decResult_of_done hdone, State.decValue, narrow_eq_ofNat (widthBits_le Config.pbits_le _)]
    rfl
  · have hholds := play_holdsResult hdone hms
    obtain ⟨hvalue, hcount⟩ := hholds.decValue_decCount
    refine ⟨_, _, decResult_of_done hdone, decResult_of_done hholds.1, ?_⟩
    rw [State.sawResult_seen, State.sawResult_seen, hvalue, hcount]

end Sys2Proof.Machine
end

section
/-! Proofs about the width adapters (43_width_adapters.md R126 and R127). -/

namespace Sys2Proof.Machine

/-- An operand that fits is not changed (R126). -/
theorem widen_eq_self {bits : Nat} (h : bits ≤ 64) {v : Val} (hfits : v.toNat < 2 ^ bits) : widen bits v = v :=
  BitVec.eq_of_toNat_eq (by rw [toNat_widen h, Nat.mod_eq_of_lt hfits])

/-- At the result port the value is taken modulo `2^W` (R127). -/
theorem toNat_narrow {bits : Nat} (h : bits ≤ 64) (acc : Val) : (narrow bits acc).toNat = acc.toNat % 2 ^ bits :=
  toNat_widen h acc

theorem opDec_fst (p : Nat) (w : Width) (x : List Byte) : (opDec p w x).1 = narrow (widthBits p w) (dec64 x).1 := rfl

theorem opDec_snd (p : Nat) (w : Width) (x : List Byte) : (opDec p w x).2 = (dec64 x).2 := rfl

/-- Settles O29: no width exceeds 64 bits, so both adapters are the remainder modulo `2^W`, and `DEC.w` narrows the value
only. -/
theorem adaptersAreModTwoToTheWidth : Obligations.AdaptersAreModTwoToTheWidth := by
  intro p w v input _ hp
  have hbits : widthBits p w ≤ 64 := widthBits_le hp w
  have hdec : (opDec p w input).1.toNat = (dec64 input).1.toNat % 2 ^ widthBits p w := by
    rw [opDec_fst, toNat_narrow hbits]
  exact ⟨toNat_widen hbits v, widen_eq_self hbits, toNat_narrow hbits v, widen_sixtyFour v, narrow_sixtyFour v, hdec,
    opDec_snd p w input⟩

end Sys2Proof.Machine
end

section
/-! Proofs about a start command presented to a busy unit (70_reset_and_hazards.md R154). -/

namespace Sys2Proof

/-- The well-formed commands are those that no reserved field rejects (R57). -/
theorem wellFormed_iff {c : Command} : c.wellFormed = true ↔ ¬ ∃ e, selects c.cmd = .error e := by
  rw [selects_error_iff]
  simp [Command.wellFormed, Command.opDefined, Command.wselDefined]

theorem Kind.code_injective {k l : Kind} (h : k.code = l.code) : k = l :=
  Option.some.inj ((kindOf_eq_some.mpr rfl).symm.trans (kindOf_eq_some.mpr h))

/-- A well-formed command selects the kind whose code its `op` field is, at some width. -/
theorem exists_selects_of_wellFormed {c : Command} {k : Kind} (hwf : c.wellFormed = true) (hop : opField c.cmd = k.code) :
    ∃ w, selects c.cmd = .ok (k, w) := by
  cases hs : selects c.cmd with
  | error e => exact absurd ⟨e, hs⟩ (wellFormed_iff.mp hwf)
  | ok kw =>
    obtain ⟨l, w⟩ := kw
    obtain rfl : k = l := Kind.code_injective (hop.symm.trans (selects_eq_ok.mp hs).1)
    exact ⟨w, rfl⟩

end Sys2Proof

namespace Sys2Proof.Machine

theorem takeCommand_of_selects {c : Command} {k : Kind} {w : Width} (h : selects c.cmd = .ok (k, w)) (s : State) :
    takeCommand c s = exec (instrOf k w c.val c.input) s := by
  rw [takeCommand, decode_of_selects h]

theorem takeCommand_enc_of_run {c : Command} {s : State} (hwf : c.wellFormed = true) (hop : opField c.cmd = 0b01#2)
    (hrun : s.encState = .run) : takeCommand c s = .refused .encBusy := by
  obtain ⟨w, hsel⟩ := exists_selects_of_wellFormed (k := .enc) hwf hop
  rw [takeCommand_of_selects hsel, exec_instrOf_enc, encStart_of_run hrun]

theorem takeCommand_dec_of_run {c : Command} {s : State} (hwf : c.wellFormed = true) (hop : opField c.cmd = 0b10#2)
    (hrun : s.decState = .run) : takeCommand c s = .refused .decBusy := by
  obtain ⟨w, hsel⟩ := exists_selects_of_wellFormed (k := .dec) hwf hop
  rw [takeCommand_of_selects hsel, exec_instrOf_dec, decStart_of_run hrun]

/-- Settles O44: a well-formed command of the unit's kind is that unit's start, which RUN refuses, and `settle_of_refused` drops
it. -/
theorem busyUnitRefusesTheStart : Obligations.BusyUnitRefusesTheStart := by
  refine fun s c rest ha hwf => ⟨fun hop hrun => ?_, fun hop hrun => ?_⟩
  · have hstep : step s = .refused .encBusy := (step_presenting ha).trans (takeCommand_enc_of_run hwf hop hrun)
    exact ⟨hstep, settle_of_refused ha hstep⟩
  · have hstep : step s = .refused .decBusy := (step_presenting ha).trans (takeCommand_dec_of_run hwf hop hrun)
    exact ⟨hstep, settle_of_refused ha hstep⟩

end Sys2Proof.Machine
end

section
/-! Proofs about decode and encode of operations (30_encoding.md sections 4 and 5). -/

namespace Sys2Proof

/-- The two fields are all of a command word (R54). -/
theorem cmd_eq_of_fields_eq {a b : BitVec 5} (hop : opField a = opField b) (hwsel : wselField a = wselField b) : a = b := by
  have hhigh : a.toNat / 8 = b.toNat / 8 := by rw [← opField_toNat, ← opField_toNat, hop]
  have hlow : a.toNat % 8 = b.toNat % 8 := by rw [← wselField_toNat, ← wselField_toNat, hwsel]
  exact BitVec.eq_of_toNat_eq (by omega)

/-- `wordOf` is the one word that selects a kind and a width (R62). -/
theorem selects_eq_ok_iff_eq_wordOf {cmd : BitVec 5} {k : Kind} {w : Width} :
    selects cmd = .ok (k, w) ↔ cmd = wordOf k w := by
  refine ⟨fun h => ?_, fun h => h ▸ selects_wordOf k w⟩
  obtain ⟨hop, hwsel⟩ := selects_eq_ok.mp h
  obtain ⟨hop', hwsel'⟩ := selects_eq_ok.mp (selects_wordOf k w)
  exact cmd_eq_of_fields_eq (hop.trans hop'.symm) (hwsel.trans hwsel'.symm)

/-- An operation is given by its kind, its width and the lines it uses; the other lines play no part (R54). -/
theorem instrOf_kind_width {i : Instr} {v : Val} {x : List Byte} :
    instrOf i.kind i.width v x = i ↔ (∀ u, i.val? = some u → v = u) ∧ ∀ y, i.input? = some y → x = y := by
  cases i <;> simp [instrOf, Instr.kind, Instr.width, Instr.val?, Instr.input?]

theorem decode_eq_ok_iff {c : Command} {i : Instr} : decode c = .ok i ↔
    c.cmd = i.word ∧ (∀ v, i.val? = some v → c.val = v) ∧ ∀ x, i.input? = some x → c.input = x := by
  rw [← instrOf_kind_width, Instr.word, ← selects_eq_ok_iff_eq_wordOf]
  cases hs : selects c.cmd with
  | error e => simp [decode_of_reserved hs]
  | ok kw =>
    obtain ⟨k, w⟩ := kw
    rw [decode_of_selects hs]
    constructor
    · intro h
      obtain rfl : instrOf k w c.val c.input = i := Except.ok.inj h
      simp
    · rintro ⟨h, hi⟩
      obtain ⟨rfl, rfl⟩ : k = i.kind ∧ w = i.width := by simpa using h
      rw [hi]

/-- Settles O2: a command decodes to `i` exactly when it has the word and the used lines of `i` (`decode_eq_ok_iff`), as the
command that `encode` makes of `i` has. -/
theorem decodeEncodeAgree : Obligations.DecodeEncodeAgree := by
  refine ⟨fun i => decode_eq_ok_iff.mpr ⟨rfl, fun v hv => ?_, fun x hx => ?_⟩, fun c i => decode_eq_ok_iff⟩
  · rw [encode, hv, Option.getD_some]
  · rw [encode, hx, Option.getD_some]

end Sys2Proof
end

section
/-! Proofs about what a step does with the next moment (10_state.md R21, 00_scope.md R7) and about the status levels (R18). -/

namespace Sys2Proof.Machine

theorem takeCommand_of_decode {c : Command} {i : Instr} (h : decode c = .ok i) (s : State) : takeCommand c s = exec i s := by
  rw [takeCommand, h]

/-- Settles O4: the step takes the command presented, which is `exec` of the operation it decodes to. -/
theorem stepRunsTheCommand : Obligations.StepRunsTheCommand := fun _ _ _ _ ha hi =>
  (step_presenting ha).trans (takeCommand_of_decode hi _)

/-- Settles O5: the three forms the head of the agenda can have beside `RESET`. -/
theorem stepTakesTheMove : Obligations.StepTakesTheMove :=
  ⟨fun _ _ _ ha => step_offering ha, fun _ _ ha => step_cons ha, fun _ ha => step_next.mpr (.inl ⟨ha, rfl⟩)⟩

/-- Settles O7: `step_of_reset`, with the reset state written out. -/
theorem resetWinsFromEveryState : Obligations.ResetWinsFromEveryState := fun _ _ _ ha => step_of_reset ha

/-- Settles O45: the levels HOST reads are `State.statusLevels`, each a test of its phase register. -/
theorem statusLevelsFollowThePhases : Obligations.StatusLevelsFollowThePhases := fun s =>
  ⟨s.statusLevels, readStatus_eq s, beq_iff_eq, beq_iff_eq, beq_iff_eq⟩

/-- Settles O55: at `W64` the result is `dec64`, whatever PBITS is, so the rows of the table evaluate. -/
theorem decodeW64CornerCases : Obligations.DecodeW64CornerCases := by
  intro p
  simp only [opDec_w64]
  decide

end Sys2Proof.Machine
end

section
/-! The rules of a play: what one move of HOST leaves behind, accepted or not, and that a move touches its own unit's part of
the state only (10_state.md R21, R26). -/

namespace Sys2Proof.Machine

/-! ## The two parts of a state -/

/-- The state with another encoder part. -/
def State.withEnc (s : State) (p : EncPart) : State :=
  { s with encState := p.encState, encRem := p.encRem, out := p.out, seen := { s.seen with emitted := p.emitted } }

/-- The state with another decoder part. -/
def State.withDec (s : State) (p : DecPart) : State :=
  { s with
    decState := p.decState, decAcc := p.decAcc, decCnt := p.decCnt, decW := p.decW, inp := p.inp
    seen := { s.seen with result := p.result } }

@[simp] theorem State.encPart_withEnc (s : State) (p : EncPart) : (s.withEnc p).encPart = p := rfl
@[simp] theorem State.decPart_withEnc (s : State) (p : EncPart) : (s.withEnc p).decPart = s.decPart := rfl
@[simp] theorem State.encPart_withDec (s : State) (p : DecPart) : (s.withDec p).encPart = s.encPart := rfl
@[simp] theorem State.decPart_withDec (s : State) (p : DecPart) : (s.withDec p).decPart = p := rfl
@[simp] theorem State.encPart_withAgenda (s : State) (ms : List Moment) : (s.withAgenda ms).encPart = s.encPart := rfl
@[simp] theorem State.decPart_withAgenda (s : State) (ms : List Moment) : (s.withAgenda ms).decPart = s.decPart := rfl

theorem State.withEnc_withDec_comm (s : State) (p : EncPart) (q : DecPart) :
    (s.withEnc p).withDec q = (s.withDec q).withEnc p := rfl

theorem State.withEnc_withAgenda (s : State) (p : EncPart) (ms : List Moment) :
    (s.withAgenda ms).withEnc p = (s.withEnc p).withAgenda ms := rfl

theorem State.withDec_withAgenda (s : State) (p : DecPart) (ms : List Moment) :
    (s.withAgenda ms).withDec p = (s.withDec p).withAgenda ms := rfl

/-! ## What an accepted move writes -/

/-- An accepted move leaves the encoder's part as it is, or is one of the encoder's two steps. -/
theorem encPart_of_takeMove {m : Move} {s t : State} (h : takeMove m s = .next t) :
    t.encPart = s.encPart ∨ m.forEnc = true ∧
      ((∃ w v, encStart w v s = .next t) ∨ m = .encEmit ∧ encEmit s = .next t) := by
  cases m with
  | command c =>
    simp only [takeMove] at h
    obtain ⟨-, w, e⟩ | ⟨hop, w, e⟩ | ⟨-, w, e⟩ | ⟨r, e⟩ := takeCommand_cases c s <;> rw [e] at h
    · cases h; exact .inl rfl
    · exact .inr ⟨beq_iff_eq.mpr hop, .inl ⟨w, c.val, h⟩⟩
    · obtain ⟨-, rfl⟩ := decStart_next.mp h; exact .inl rfl
    · cases h
  | encEmit => exact .inr ⟨rfl, .inr ⟨rfl, h⟩⟩
  | decByte => obtain ⟨-, b, -, hb, rfl⟩ := decByte_next.mp h; exact .inl rfl
  | decEnd => obtain ⟨-, -, rfl⟩ := decEnd_next.mp h; exact .inl rfl
  | readResult => obtain ⟨-, rfl⟩ := decResult_next.mp h; exact .inl rfl
  | readStatus => cases h; exact .inl rfl

/-- An accepted move leaves the decoder's part as it is, or is one of the decoder's four steps. -/
theorem decPart_of_takeMove {m : Move} {s t : State} (h : takeMove m s = .next t) :
    t.decPart = s.decPart ∨ m.forDec = true ∧
      ((∃ c w, m = .command c ∧ decStart w c.input s = .next t) ∨ decByte s = .next t ∨ decEnd s = .next t ∨
        decResult s = .next t) := by
  cases m with
  | command c =>
    simp only [takeMove] at h
    obtain ⟨-, w, e⟩ | ⟨-, w, e⟩ | ⟨hop, w, e⟩ | ⟨r, e⟩ := takeCommand_cases c s <;> rw [e] at h
    · cases h; exact .inl rfl
    · obtain ⟨-, rfl⟩ := encStart_next.mp h; exact .inl rfl
    · exact .inr ⟨beq_iff_eq.mpr hop, .inl ⟨c, w, rfl, h⟩⟩
    · cases h
  | encEmit => obtain ⟨-, ⟨-, rfl⟩ | ⟨-, rfl⟩⟩ := encEmit_next.mp h <;> exact .inl rfl
  | decByte => exact .inr ⟨rfl, .inr (.inl h)⟩
  | decEnd => exact .inr ⟨rfl, .inr (.inr (.inl h))⟩
  | readResult => exact .inr ⟨rfl, .inr (.inr (.inr h))⟩
  | readStatus => cases h; exact .inl rfl

/-- The stuck byte of U11. -/
theorem decByte_of_cap {s : State} {b : Byte} (hrun : s.decState = .run) (hb : s.inp[s.decCnt.val]? = some b)
    (hn : ¬ s.decCnt.val < 10) : decByte s = .fault .countPastCap := by
  have hbyte : s.inByte? = some b := hb
  exact decByte_fault.mpr ⟨rfl, hrun, by rw [hbyte]; exact Option.some_ne_none b, hn⟩

/-! ## A move settled -/

/-- What HOST finds after a step that ended so: the next state, or the state it was offered in. -/
def stateAfter (r : Result) (s : State) : State :=
  match r with
  | .next t => t
  | .fault _ => s
  | .refused _ => s

/-- One move, accepted or not. -/
def settleMove (m : Move) (s : State) : State := stateAfter (takeMove m s) s

theorem stateAfter_cases (r : Result) (s : State) : r = .next (stateAfter r s) ∨ stateAfter r s = s := by
  cases r with
  | next t => exact .inl rfl
  | fault f => exact .inr rfl
  | refused f => exact .inr rfl

theorem settleMove_of_next {m : Move} {s t : State} (h : takeMove m s = .next t) : settleMove m s = t := by
  rw [settleMove, h, stateAfter]

theorem settleMove_of_refused {m : Move} {s : State} {r : Refusal} (h : takeMove m s = .refused r) : settleMove m s = s := by
  rw [settleMove, h, stateAfter]

theorem settleMove_of_fault {m : Move} {s : State} {f : Fault} (h : takeMove m s = .fault f) : settleMove m s = s := by
  rw [settleMove, h, stateAfter]

theorem encPart_settleMove_of_not_forEnc {m : Move} (hm : m.forEnc = false) (s : State) :
    (settleMove m s).encPart = s.encPart := by
  obtain h | h := stateAfter_cases (takeMove m s) s
  · obtain hkeep | ⟨hm', -⟩ := encPart_of_takeMove h
    · exact hkeep
    · exact absurd (hm.symm.trans hm') (by decide)
  · exact congrArg State.encPart h

theorem decPart_settleMove_of_not_forDec {m : Move} (hm : m.forDec = false) (s : State) :
    (settleMove m s).decPart = s.decPart := by
  obtain h | h := stateAfter_cases (takeMove m s) s
  · obtain hkeep | ⟨hm', -⟩ := decPart_of_takeMove h
    · exact hkeep
    · exact absurd (hm.symm.trans hm') (by decide)
  · exact congrArg State.decPart h

/-! ## A unit's own move reads and writes its own part -/

/-- A reserved word is refused in every state; any other is the start of its kind and width. -/
theorem takeMove_command_cases (c : Command) :
    (∃ r, ∀ s, takeMove (.command c) s = .refused r) ∨
    ∃ k w, opField c.cmd = k.code ∧ ∀ s, takeMove (.command c) s = exec (instrOf k w c.val c.input) s := by
  cases hs : selects c.cmd with
  | error e => exact .inl ⟨_, takeCommand_of_error (decode_of_reserved hs)⟩
  | ok kw =>
    obtain ⟨k, w⟩ := kw
    exact .inr ⟨k, w, (selects_eq_ok.mp hs).1, takeCommand_of_selects hs⟩

/-- What a move makes of the encoder's part, the rest of the state being as at reset. -/
def EncPart.after (m : Move) (p : EncPart) : EncPart := (settleMove m (State.reset.withEnc p)).encPart

/-- What a move makes of the decoder's part, the rest of the state being as at reset. -/
def DecPart.after (m : Move) (p : DecPart) : DecPart := (settleMove m (State.reset.withDec p)).decPart

theorem settleMove_of_forEnc {m : Move} (hm : m.forEnc = true) (s : State) :
    settleMove m s = s.withEnc (s.encPart.after m) := by
  obtain ⟨encState, encRem, decState, decAcc, decCnt, decW, inp, out, seen, agenda⟩ := s
  cases m with
  | command c =>
    obtain ⟨r, hr⟩ | ⟨k, w, hop, hk⟩ := takeMove_command_cases c
    · simp only [EncPart.after, settleMove, hr]; rfl
    · obtain rfl : k = .enc := Kind.code_injective (hop.symm.trans (beq_iff_eq.mp hm))
      simp only [EncPart.after, settleMove, hk, exec_instrOf_enc]
      cases encState <;> rfl
  | encEmit =>
    cases encState with
    | idle => rfl
    | run =>
      simp only [EncPart.after, settleMove, takeMove, encEmit, State.withEnc, State.encPart]
      by_cases hmore : moreFollows encRem = true <;> simp only [hmore, if_true, if_false, reduceCtorEq] <;> rfl
  | decByte => cases hm
  | decEnd => cases hm
  | readResult => cases hm
  | readStatus => cases hm

/-- A byte is accepted, or not, by the decoder's own registers. -/
theorem settleMove_decByte (s : State) : settleMove .decByte s = s.withDec (s.decPart.after .decByte) := by
  have kept (h : settleMove .decByte s = s)
      (h' : settleMove .decByte (State.reset.withDec s.decPart) = State.reset.withDec s.decPart) :
      settleMove .decByte s = s.withDec (s.decPart.after .decByte) := by rw [DecPart.after, h, h']; rfl
  cases hphase : s.decState with
  | idle =>
    exact kept (settleMove_of_refused (decByte_of_not_run (.inl hphase)))
      (settleMove_of_refused (decByte_of_not_run (.inl hphase)))
  | done =>
    exact kept (settleMove_of_refused (decByte_of_not_run (.inr hphase)))
      (settleMove_of_refused (decByte_of_not_run (.inr hphase)))
  | run =>
    cases hb : s.inp[s.decCnt.val]? with
    | none =>
      exact kept (settleMove_of_refused (decByte_of_no_byte hphase hb))
        (settleMove_of_refused (decByte_of_no_byte hphase hb))
    | some b =>
      by_cases hn : s.decCnt.val < 10
      · have haccept := decByte_of_run (s := State.reset.withDec s.decPart) hphase hb hn
        rw [DecPart.after, settleMove_of_next (m := .decByte) haccept]
        exact settleMove_of_next (decByte_of_run hphase hb hn)
      · exact kept (settleMove_of_fault (decByte_of_cap hphase hb hn)) (settleMove_of_fault (decByte_of_cap hphase hb hn))

theorem settleMove_of_forDec {m : Move} (hm : m.forDec = true) (s : State) :
    settleMove m s = s.withDec (s.decPart.after m) := by
  cases m with
  | command c =>
    obtain ⟨r, hr⟩ | ⟨k, w, hop, hk⟩ := takeMove_command_cases c
    · simp only [DecPart.after, settleMove, hr]; rfl
    · obtain rfl : k = .dec := Kind.code_injective (hop.symm.trans (beq_iff_eq.mp hm))
      simp only [DecPart.after, settleMove, hk, exec_instrOf_dec]
      obtain ⟨encState, encRem, decState, decAcc, decCnt, decW, inp, out, seen, agenda⟩ := s
      cases decState <;> rfl
  | encEmit => cases hm
  | decByte => exact settleMove_decByte s
  | decEnd =>
    obtain ⟨encState, encRem, decState, decAcc, decCnt, decW, inp, out, seen, agenda⟩ := s
    cases decState with
    | idle => rfl
    | done => rfl
    | run =>
      simp only [DecPart.after, settleMove, takeMove, decEnd, State.withDec, State.decPart]
      by_cases hn : decCnt.val = inp.length <;> simp only [hn, if_true, if_false] <;> rfl
  | readResult =>
    obtain ⟨encState, encRem, decState, decAcc, decCnt, decW, inp, out, seen, agenda⟩ := s
    cases decState <;> rfl
  | readStatus => cases hm

/-- No move reads HOST's further moments. -/
theorem settleMove_withAgenda (m : Move) (s : State) (ms : List Moment) :
    settleMove m (s.withAgenda ms) = (settleMove m s).withAgenda ms := by
  by_cases henc : m.forEnc = true
  · rw [settleMove_of_forEnc henc, settleMove_of_forEnc henc, State.encPart_withAgenda, State.withEnc_withAgenda]
  by_cases hdec : m.forDec = true
  · rw [settleMove_of_forDec hdec, settleMove_of_forDec hdec, State.decPart_withAgenda, State.withDec_withAgenda]
  cases m with
  | command c =>
    obtain ⟨r, hr⟩ | ⟨k, w, hop, hk⟩ := takeMove_command_cases c
    · rw [settleMove_of_refused (hr s), settleMove_of_refused (hr _)]
    · cases k with
      | size => simp only [settleMove, hk, exec_instrOf_size, sizeEval_eq]; rfl
      | enc => exact absurd (beq_iff_eq.mpr hop) henc
      | dec => exact absurd (beq_iff_eq.mpr hop) hdec
  | encEmit => exact absurd rfl henc
  | decByte => exact absurd rfl hdec
  | decEnd => exact absurd rfl hdec
  | readResult => exact absurd rfl hdec
  | readStatus => rfl

end Sys2Proof.Machine
end

section
/-! Proofs about plays and the isolation of the two units (10_state.md R26, 20_memory.md R40). -/

namespace Sys2Proof.Machine

/-! ## A play, moment by moment -/

/-- One moment, accepted or not. -/
def settleMoment (m : Moment) (s : State) : State := stateAfter (takeMoment m s) s

theorem settleMoment_move (m : Move) (s : State) : settleMoment ⟨false, some m⟩ s = settleMove m s := rfl

/-- No moment reads HOST's further moments. -/
theorem settleMoment_withAgenda (m : Moment) (s : State) (ms : List Moment) :
    settleMoment m (s.withAgenda ms) = (settleMoment m s).withAgenda ms := by
  obtain ⟨reset, mv⟩ := m
  cases reset with
  | true => rfl
  | false =>
    cases mv with
    | none => rfl
    | some mv => exact settleMove_withAgenda mv s ms

theorem settle_eq_settleMoment {s : State} {m : Moment} {rest : List Moment} (h : s.agenda = m :: rest) :
    settle s = settleMoment m (s.withAgenda rest) := by
  have hdrop : s.dropMoment = s.withAgenda rest := by rw [State.dropMoment, h, List.tail_cons]
  rw [settle, step_cons h, hdrop, settleMoment]
  cases takeMoment m (s.withAgenda rest) <;> rfl

theorem play_withAgenda (s : State) (ms rest : List Moment) : play (s.withAgenda rest) ms = play s ms := rfl

/-- The next moment of a play. -/
theorem play_cons_eq (s : State) (m : Moment) (ms : List Moment) : play s (m :: ms) = play (settleMoment m s) ms := by
  rw [play_cons, settle_eq_settleMoment (State.withAgenda_agenda s _), State.withAgenda_withAgenda, settleMoment_withAgenda,
    play_withAgenda]

theorem play_offering_cons (s : State) (m : Move) (ms : List Moment) :
    play s (offering m :: ms) = play (settleMove m s) ms :=
  play_cons_eq s _ ms

theorem play_presenting_cons (s : State) (c : Command) (ms : List Moment) :
    play s (presenting c :: ms) = play (settleMove (.command c) s) ms :=
  play_cons_eq s _ ms

theorem play_append (s : State) (ms rest : List Moment) : play s (ms ++ rest) = play (play s ms) rest := by
  induction ms generalizing s with
  | nil => rfl
  | cons m ms ih => rw [List.cons_append, play_cons_eq, ih, play_cons_eq]

/-- A property that each of `k` equal moves carries on, counted, and that does not speak of HOST's agenda. -/
theorem play_replicate {P : Nat → State → Prop} {m : Move} (hagenda : ∀ i s ms, P i s → P i (s.withAgenda ms))
    (hmove : ∀ i s, P i s → P (i + 1) (settleMove m s)) {s : State} {i : Nat} (h : P i s) (k : Nat) :
    P (i + k) (play s (List.replicate k (offering m))) := by
  induction k generalizing s i with
  | zero => exact hagenda i s [] h
  | succ k ih =>
    rw [List.replicate_succ, play_offering_cons, ← Nat.succ_add_eq_add_succ]
    exact ih (hmove i s h)

/-! ## Isolation -/

/-- A part of the state that its own moments rewrite from itself alone, and that no other moment touches, ends as if only its own
moments had been offered. -/
theorem play_filter_own {α : Type} {part : State → α} {own : Moment → Bool}
    (hagenda : ∀ s ms, part (s.withAgenda ms) = part s)
    (hown : ∀ m, own m = true → ∃ g : α → α, ∀ s, part (settleMoment m s) = g (part s))
    (hother : ∀ m, own m = false → ∀ s, part (settleMoment m s) = part s) {s t : State} (h : part s = part t)
    (ms : List Moment) : part (play s ms) = part (play t (ms.filter own)) := by
  induction ms generalizing s t with
  | nil => exact (hagenda s []).trans (h.trans (hagenda t []).symm)
  | cons m ms ih =>
    rw [play_cons_eq]
    cases hm : own m with
    | true =>
      obtain ⟨g, hg⟩ := hown m hm
      rw [List.filter_cons_of_pos hm, play_cons_eq]
      exact ih (by rw [hg, hg, h])
    | false =>
      rw [List.filter_cons_of_neg (by simp [hm])]
      exact ih ((hother m hm s).trans h)

/-- Settles O50: an encoder moment rewrites the encoder's part from itself (`settleMove_of_forEnc`), no other touches it. -/
theorem encoderIsIsolated : Obligations.EncoderIsIsolated := by
  refine fun s ms => play_filter_own State.encPart_withAgenda (fun m hm => ?_) (fun m hm s => ?_) rfl ms
  · obtain ⟨_ | _, _ | mv⟩ := m
    · cases hm
    · exact ⟨EncPart.after mv, fun s => by rw [settleMoment_move, settleMove_of_forEnc hm, State.encPart_withEnc]⟩
    · exact ⟨fun _ => State.reset.encPart, fun _ => rfl⟩
    · exact ⟨fun _ => State.reset.encPart, fun _ => rfl⟩
  · obtain ⟨_ | _, _ | mv⟩ := m
    · rfl
    · exact encPart_settleMove_of_not_forEnc hm s
    · cases hm
    · cases hm

/-- Settles O51: the same of the decoder. -/
theorem decoderIsIsolated : Obligations.DecoderIsIsolated := by
  refine fun s ms => play_filter_own State.decPart_withAgenda (fun m hm => ?_) (fun m hm s => ?_) rfl ms
  · obtain ⟨_ | _, _ | mv⟩ := m
    · cases hm
    · exact ⟨DecPart.after mv, fun s => by rw [settleMoment_move, settleMove_of_forDec hm, State.decPart_withDec]⟩
    · exact ⟨fun _ => State.reset.decPart, fun _ => rfl⟩
    · exact ⟨fun _ => State.reset.decPart, fun _ => rfl⟩
  · obtain ⟨_ | _, _ | mv⟩ := m
    · rfl
    · exact decPart_settleMove_of_not_forDec hm s
    · cases hm
    · cases hm

/-- Settles O52: the two moves rewrite different parts, each from itself. -/
theorem unitMovesCommute : Obligations.UnitMovesCommute := by
  intro s a b ha hb
  simp only [play_offering_cons, settleMove_of_forEnc ha, settleMove_of_forDec hb, State.encPart_withDec,
    State.decPart_withEnc, State.withEnc_withDec_comm]

end Sys2Proof.Machine
end

section
/-! Proofs about who writes what (10_state.md R11 to R16 and R20), and about the byte on offer while HOST waits
(70_reset_and_hazards.md section 3). -/

namespace Sys2Proof.Machine

/-! ## The frame of a step -/

/-- Only `RESET` leads DEC to IDLE, and only a `DEC.w` command writes `dec_w` and `In`. -/
theorem decoder_frame_of_takeMove {m : Move} {s t : State} (h : takeMove m s = .next t) :
    (s.decState ≠ .idle → t.decState ≠ .idle) ∧ ((∀ c, m ≠ .command c) → t.decW = s.decW ∧ t.inp = s.inp) := by
  obtain hkeep | ⟨-, ⟨c, w, rfl, hstart⟩ | h | h | h⟩ := decPart_of_takeMove h
  · have hstate : t.decState = s.decState := congrArg DecPart.decState hkeep
    exact ⟨fun hs => hstate ▸ hs, fun _ => ⟨congrArg DecPart.decW hkeep, congrArg DecPart.inp hkeep⟩⟩
  · obtain ⟨-, rfl⟩ := decStart_next.mp hstart
    exact ⟨fun _ => by simp, fun hc => absurd rfl (hc c)⟩
  · obtain ⟨-, b, -, hn, rfl⟩ := decByte_next.mp h
    refine ⟨fun _ => ?_, fun _ => ⟨rfl, rfl⟩⟩
    rw [State.consume_decState, phaseAfter]
    split <;> simp
  · obtain ⟨-, -, rfl⟩ := decEnd_next.mp h
    exact ⟨fun _ => by simp, fun _ => ⟨rfl, rfl⟩⟩
  · obtain ⟨-, rfl⟩ := decResult_next.mp h
    exact ⟨fun hs => hs, fun _ => ⟨rfl, rfl⟩⟩

/-- A read writes what HOST has seen and nothing else. -/
theorem read_frame_of_takeMove {m : Move} {s t : State} (hm : m = .readResult ∨ m = .readStatus)
    (h : takeMove m s = .next t) : { t with seen := s.seen } = s := by
  obtain rfl | rfl := hm
  · obtain ⟨-, rfl⟩ := decResult_next.mp h; rfl
  · cases h; rfl

/-- Settles O49: the encoder's and the decoder's part by the frames of `settleMove`, the rest by the two frame lemmas. -/
theorem registersHaveTheirWritersOnly : Obligations.RegistersHaveTheirWritersOnly := by
  rintro s t ⟨reset, mv⟩ rest ha (rfl : reset = false) h
  rw [step_cons ha] at h
  cases mv with
  | none =>
    cases h
    exact ⟨fun _ => rfl, fun _ => rfl, fun _ => ⟨rfl, rfl⟩, fun _ => rfl, fun hs => hs, rfl⟩
  | some mv =>
    rw [takeMoment_move] at h
    obtain ⟨hidle, hlatch⟩ := decoder_frame_of_takeMove h
    have hsettle := settleMove_of_next h
    refine ⟨fun hm => ?_, fun hm => ?_, fun hc => hlatch fun c hmv => hc c (congrArg some hmv), fun hread => ?_, hidle,
      takeMove_agenda h⟩
    · rw [← hsettle, encPart_settleMove_of_not_forEnc hm, State.encPart_withAgenda]
    · rw [← hsettle, decPart_settleMove_of_not_forDec hm, State.decPart_withAgenda]
    · exact read_frame_of_takeMove (hread.imp Option.some.inj Option.some.inj) h

/-! ## The byte on offer -/

theorem State.encState_eq_of_encPart_eq {s t : State} (h : t.encPart = s.encPart) : t.encState = s.encState :=
  congrArg EncPart.encState h

theorem State.encRem_eq_of_encPart_eq {s t : State} (h : t.encPart = s.encPart) : t.encRem = s.encRem :=
  congrArg EncPart.encRem h

theorem State.out_eq_of_encPart_eq {s t : State} (h : t.encPart = s.encPart) : t.out = s.out :=
  congrArg EncPart.out h

/-- In RUN only an emit writes the encoder's part. -/
theorem encPart_of_takeMove_in_run {m : Move} {s t : State} (hrun : s.encState = .run) (hm : m ≠ .encEmit)
    (h : takeMove m s = .next t) : t.encPart = s.encPart := by
  obtain hkeep | ⟨-, ⟨w, v, hstart⟩ | ⟨hemit, -⟩⟩ := encPart_of_takeMove h
  · exact hkeep
  · exact absurd (hrun.symm.trans (encStart_next.mp hstart).1) (by decide)
  · exact absurd hemit hm

theorem encPart_play_waiting {s : State} {ms : List Moment} (hrun : s.encState = .run)
    (hms : ∀ m ∈ ms, m.reset = false ∧ m.move ≠ some .encEmit) : (play s ms).encPart = s.encPart := by
  refine play_keeps (P := fun u => u.encPart = s.encPart) (fun _ _ h => h) (fun u t m hu hm h => ?_) rfl hms
  obtain ⟨reset, mv⟩ := m
  obtain ⟨rfl, hemit⟩ : reset = false ∧ mv ≠ some .encEmit := hm
  cases mv with
  | none => cases h; exact hu
  | some mv =>
    have hurun := (State.encState_eq_of_encPart_eq hu).trans hrun
    exact (encPart_of_takeMove_in_run hurun (fun he => hemit (congrArg some he)) h).trans hu

/-- Settles O56: the encoder's part waits unchanged, so the ports show what they showed and the next emit takes that byte. -/
theorem outputByteWaitsForHost : Obligations.OutputByteWaitsForHost := by
  intro s ms hrun hms
  have hpart := encPart_play_waiting hrun hms
  have hrun' := (State.encState_eq_of_encPart_eq hpart).trans hrun
  have hbyte : (play s ms).outByte = s.outByte := by
    rw [State.outByte, State.outByte, State.encRem_eq_of_encPart_eq hpart]
  obtain ⟨t, ht, hout, -⟩ := encEmit_takes_outByte hrun'
  exact ⟨hpart, outValid_iff.mpr hrun', hbyte, t, ht, by rw [hout, hbyte, State.out_eq_of_encPart_eq hpart]⟩

/-- Settles O37: `play_holdsResult`, read at the two result ports. -/
theorem resultHoldsUntilTheNextStart : Obligations.ResultHoldsUntilTheNextStart := by
  intro s ms hdone hms
  have hholds := play_holdsResult hdone hms
  exact ⟨hholds.1, hholds.decValue_decCount⟩

end Sys2Proof.Machine
end

section
/-! Proofs about `ENC64` (41_encode.md section 1): its loop, its properties, and the round trip at every width
(43_width_adapters.md section 2). -/

namespace Sys2Proof.Machine

/-! ## The size -/

theorem size64_le_size64 {u v : Val} (h : u.toNat ≤ v.toNat) : size64 u ≤ size64 v :=
  (size64_le_iff (size64_pos v)).mpr (h.trans_lt ((size64_le_iff (size64_pos v)).mp le_rfl))

/-- Settles O11: the groups that hold `v` hold every smaller value. -/
theorem sizeIsMonotone : Obligations.SizeIsMonotone := fun _ _ h => size64_le_size64 h

/-- Settles O10: the two bounds of the size and the length of the encoding, at every width. -/
theorem sizeWithinTheByteBudget : Obligations.SizeWithinTheByteBudget := fun p w v hpos hp =>
  ⟨opSize_pos p w v, opSize_le_ceilSeven hpos hp w v, length_opEnc p w v⟩

/-! ## The remaining value after `i` groups -/

/-- More follows group `i` exactly when another group is sent (R81, R91). -/
theorem moreFollows_ushiftRight (v : Val) (i : Nat) : moreFollows (v >>> (7 * i)) = decide (i + 1 < size64 v) := by
  have hlt : (v >>> (7 * i)).toNat < 128 ↔ size64 v ≤ i + 1 := by
    have hpow : 128 * 2 ^ (7 * i) = 2 ^ (7 * (i + 1)) := by rw [Nat.mul_succ, Nat.pow_add, Nat.mul_comm]
    rw [BitVec.toNat_ushiftRight, Nat.shiftRight_eq_div_pow, Nat.div_lt_iff_lt_mul (Nat.two_pow_pos _), hpow,
      size64_le_iff i.succ_pos]
  rw [Bool.eq_iff_iff, moreFollows_iff, decide_eq_true_iff]
  omega

theorem lowGroup_ushiftRight (v : Val) (i : Nat) : lowGroup (v >>> (7 * i)) = groupAt v i := by
  rw [lowGroup, groupAt, BitVec.setWidth_eq_extractLsb' (by decide), Config.groupBits_eq]

/-- The byte emitted after `i` groups is byte `i` of the encoding. -/
theorem emitByte_ushiftRight (v : Val) (i : Nat) :
    emitByte (v >>> (7 * i)) = byteOf (decide (i + 1 < size64 v)) (groupAt v i) := by
  rw [emitByte, moreFollows_ushiftRight, lowGroup_ushiftRight]

theorem getElem?_enc64 {v : Val} {i : Nat} (hi : i < size64 v) : (enc64 v)[i]? = some (emitByte (v >>> (7 * i))) :=
  getElem?_enc64_eq_some.mpr ⟨hi, emitByte_ushiftRight v i⟩

theorem ushiftRight_succ_groups (v : Val) (i : Nat) : v >>> (7 * i) >>> Config.groupBits = v >>> (7 * (i + 1)) := by
  rw [Config.groupBits_eq, ← BitVec.shiftRight_add, Nat.mul_succ]

/-! ## The loop -/

theorem drop_enc64 {v : Val} {i : Nat} (hi : i < size64 v) :
    (enc64 v).drop i = emitByte (v >>> (7 * i)) :: (enc64 v).drop (i + 1) := by
  have hlen : i < (enc64 v).length := by rwa [length_enc64]
  have hbyte : (enc64 v)[i] = emitByte (v >>> (7 * i)) :=
    Option.some.inj ((List.getElem?_eq_getElem hlen).symm.trans (getElem?_enc64 hi))
  rw [List.drop_eq_getElem_cons hlen, hbyte]

theorem drop_enc64_eq_nil {v : Val} {i : Nat} (hi : size64 v ≤ i) : (enc64 v).drop i = [] := by
  rwa [List.drop_eq_nil_iff, length_enc64]

/-- The loop from the value shifted by `i` groups gives the bytes from `i` on, with fuel for all but the last of them. -/
theorem encodeLoop_ushiftRight {v : Val} {fuel i : Nat} (hi : i < size64 v) (hfuel : size64 v ≤ i + fuel + 1) :
    encodeLoop fuel (v >>> (7 * i)) = (enc64 v).drop i := by
  induction fuel generalizing i with
  | zero =>
    rw [drop_enc64 hi, drop_enc64_eq_nil hfuel, encodeLoop]
  | succ fuel ih =>
    rw [drop_enc64 hi, encodeLoop, moreFollows_ushiftRight, ushiftRight_succ_groups]
    by_cases hmore : i + 1 < size64 v
    · rw [if_pos (decide_eq_true hmore), ih hmore (by omega)]
    · rw [if_neg (by simpa using hmore), drop_enc64_eq_nil (Nat.le_of_not_lt hmore)]

/-- Settles O14: the loop from the whole value; nine groups before the last are the most there can be. -/
theorem encodeLoopIsTheClosedForm : Obligations.EncodeLoopIsTheClosedForm := by
  intro v fuel hfuel
  have hle := size64_le_ten v
  exact encodeLoop_ushiftRight (i := 0) (size64_pos v) (by omega)

/-! ## The properties of the encoded form -/

theorem dec64_enc64 (v : Val) : dec64 (enc64 v) = (v, size64 v) := by
  have h := decodeOfEncodeIsTheValue.1 v []
  rwa [List.append_nil] at h

theorem enc64_injective {u v : Val} (h : enc64 u = enc64 v) : u = v := by
  have hdec : (u, size64 u) = (v, size64 v) := by rw [← dec64_enc64, ← dec64_enc64, h]
  exact congrArg Prod.fst hdec

theorem continues_enc64 {v : Val} {i : Nat} {b : Byte} (hb : (enc64 v)[i]? = some b) :
    continues b = decide (i + 1 < size64 v) := by
  obtain ⟨-, rfl⟩ := getElem?_enc64_eq_some.mp hb
  rw [continues_byteOf]

theorem getLast?_enc64_ne_zero {v : Val} {b : Byte} (hlen : 1 < size64 v) (hb : (enc64 v).getLast? = some b) :
    b ≠ 0x00#8 := by
  rintro rfl
  rw [List.getLast?_eq_getElem?, length_enc64] at hb
  have hfits : v.toNat < 2 ^ (7 * (size64 v - 1 + 1)) := by
    rw [← size64_le_iff (Nat.succ_pos _)]
    omega
  obtain ⟨-, hone⟩ := toNat_last_enc64 (by omega) hfits hb
  exact absurd hone (by decide)

/-- Settles O15: the length, the continuation bits and the last byte by the closed form; the round trip makes it injective. -/
theorem encodedFormIsMinimalAndInjective : Obligations.EncodedFormIsMinimalAndInjective := by
  intro v
  rw [length_enc64]
  refine ⟨⟨rfl, size64_pos v, size64_le_ten v⟩, fun i b hb => ?_, by decide, fun hlen b hb => getLast?_enc64_ne_zero hlen hb,
    dec64_enc64 v, fun u hu => enc64_injective hu⟩
  rw [continues_enc64 hb, decide_eq_true_iff]

/-! ## The round trip at a width -/

theorem narrow_eq_self_iff {bits : Nat} (h : bits ≤ 64) {v : Val} : narrow bits v = v ↔ v.toNat < 2 ^ bits := by
  rw [BitVec.toNat_eq, toNat_narrow h, Nat.mod_eq_iff_lt (Nat.two_pow_pos bits).ne']

theorem opDec_opEnc {p : Nat} (w w' : Width) {v : Val} (hp : p ≤ 64) (hfits : v.toNat < 2 ^ widthBits p w) :
    opDec p w' (opEnc p w v) = (narrow (widthBits p w') v, opSize p w v) := by
  rw [opDec, opEnc, opSize, dec64_enc64, widen_eq_self (widthBits_le hp w) hfits]

/-- Settles O28: the decoded value is the operand narrowed, which is the operand exactly when it fits (`narrow_eq_self_iff`). -/
theorem roundTripAtEveryWidth : Obligations.RoundTripAtEveryWidth := by
  refine ⟨fun p w v _ hp hfits => ?_, fun p w w' v _ hp hfits => ?_, fun p => ?_⟩
  · rw [opDec_opEnc w w hp hfits, (narrow_eq_self_iff (widthBits_le hp w)).mpr hfits]
  · rw [opDec_opEnc w w' hp hfits]
    exact ⟨rfl, narrow_eq_self_iff (widthBits_le hp w')⟩
  · simp only [opDec, opEnc, widthBits]
    decide

end Sys2Proof.Machine
end

section
/-! Proofs about a whole encode at the step level (41_encode.md R89 to R92, 70_reset_and_hazards.md R152). -/

namespace Sys2Proof.Machine

/-! ## Runs of one move -/

/-- An accepted move at the head of HOST's agenda is one step of a run. -/
theorem core_run_offering {s t : State} {m : Move} {rest : List Moment} (n : Nat) (ha : s.agenda = offering m :: rest)
    (h : takeMove m (s.withAgenda rest) = .next t) : core.run (n + 1) s = core.run n t :=
  core_run_next n ((step_offering ha).trans h)

/-- A property that each of `k` equal moves, all accepted, carries on, counted, and that does not speak of HOST's agenda. -/
theorem core_run_replicate {P : Nat → State → Prop} {m : Move} {n : Nat}
    (hagenda : ∀ i s ms, P i s → P i (s.withAgenda ms))
    (hmove : ∀ i s, i < n → P i s → ∃ t, takeMove m s = .next t ∧ P (i + 1) t) {s : State} {i k : Nat}
    {rest : List Moment} (hk : i + k ≤ n) (h : P i s) (ha : s.agenda = List.replicate k (offering m) ++ rest) :
    ∃ t, P (i + k) t ∧ t.agenda = rest ∧ ∀ j, core.run (k + j) s = core.run j t := by
  induction k generalizing s i with
  | zero => exact ⟨s, h, ha, fun j => by rw [Nat.zero_add]⟩
  | succ k ih =>
    rw [List.replicate_succ, List.cons_append] at ha
    obtain ⟨u, hu, hPu⟩ := hmove i _ (by omega) (hagenda i s (List.replicate k (offering m) ++ rest) h)
    obtain ⟨t, hPt, hrest, hrun⟩ := ih (by omega) hPu (takeMove_agenda hu)
    refine ⟨t, by rwa [← Nat.succ_add_eq_add_succ], hrest, fun j => ?_⟩
    rw [Nat.succ_add, core_run_offering _ ha hu, hrun]

/-! ## The encoder after `i` bytes -/

/-- The encoder has emitted `i` bytes of the encoding of `v`, onto an output that was `pre`. -/
structure State.Encoding (s : State) (pre : List Byte) (v : Val) (i : Nat) : Prop where
  phase : s.encState = if i < size64 v then .run else .idle
  rem : s.encRem = v >>> (7 * i)
  out : s.out = pre ++ (enc64 v).take i

theorem State.Encoding.withAgenda {s : State} {pre : List Byte} {v : Val} {i : Nat} (h : s.Encoding pre v i)
    (ms : List Moment) : (s.withAgenda ms).Encoding pre v i :=
  ⟨h.phase, h.rem, h.out⟩

theorem State.Encoding.run {s : State} {pre : List Byte} {v : Val} {i : Nat} (h : s.Encoding pre v i)
    (hi : i < size64 v) : s.encState = .run := by
  rw [h.phase, if_pos hi]

theorem State.Encoding.idle {s : State} {pre : List Byte} {v : Val} (h : s.Encoding pre v (size64 v)) :
    s.encState = .idle := by
  rw [h.phase, if_neg (Nat.lt_irrefl _)]

/-- Nothing remains after the last group. -/
theorem ushiftRight_size64 (v : Val) : v >>> (7 * size64 v) = 0 := by
  have hlt := (size64_le_iff (size64_pos v)).mp (Nat.le_refl (size64 v))
  exact BitVec.eq_of_toNat_eq (by rw [BitVec.toNat_ushiftRight, Nat.shiftRight_eq_div_pow, Nat.div_eq_of_lt hlt]; rfl)

theorem encoding_of_run {s : State} (hrun : s.encState = .run) : s.Encoding s.out s.encRem 0 :=
  ⟨by rw [hrun, if_pos (size64_pos _)], by simp, by simp⟩

theorem encoding_loadEncoder (s : State) (v : Val) : (s.loadEncoder v).Encoding [] v 0 :=
  encoding_of_run (s := s.loadEncoder v) rfl

/-- Every emit before the last byte is accepted and adds one byte (R89, R91). -/
theorem encEmit_of_encoding {s : State} {pre : List Byte} {v : Val} {i : Nat} (h : s.Encoding pre v i)
    (hi : i < size64 v) : ∃ t, encEmit s = .next t ∧ t.Encoding pre v (i + 1) ∧ t.decPart = s.decPart ∧
      t.seen.emitted = (enc64 v)[i]?.map fun b => (b, decide (i + 1 = size64 v)) := by
  have hout : s.out ++ [emitByte s.encRem] = pre ++ (enc64 v).take (i + 1) := by
    rw [h.out, h.rem, List.append_assoc, List.take_add_one, getElem?_enc64 hi, Option.toList_some]
  have hmore : moreFollows s.encRem = decide (i + 1 < size64 v) := by rw [h.rem, moreFollows_ushiftRight]
  have hlast : (!decide (i + 1 < size64 v)) = decide (i + 1 = size64 v) := by
    rw [← decide_not, decide_eq_decide]
    omega
  have hemitted : some (emitByte s.encRem, outLast (emitByte s.encRem)) =
      (enc64 v)[i]?.map fun b => (b, decide (i + 1 = size64 v)) := by
    rw [outLast_emitByte, hmore, hlast, getElem?_enc64 hi, h.rem, Option.map_some]
  by_cases hlt : i + 1 < size64 v
  · rw [decide_eq_true hlt] at hmore
    refine ⟨_, encEmit_next.mpr ⟨h.run hi, .inl ⟨hmore, rfl⟩⟩, ⟨?_, ?_, hout⟩, rfl, hemitted⟩
    · rw [if_pos hlt, State.emit_encState]
    · rw [State.emit_encRem, h.rem, ushiftRight_succ_groups]
  · rw [decide_eq_false hlt] at hmore
    refine ⟨_, encEmit_next.mpr ⟨h.run hi, .inr ⟨hmore, rfl⟩⟩, ⟨?_, ?_, hout⟩, rfl, hemitted⟩
    · rw [if_neg hlt, State.emit_encState]
    · rw [State.emit_encRem, (by omega : i + 1 = size64 v), ushiftRight_size64]

/-- However many emits are offered, the encoder emits the bytes there are. -/
theorem encoding_settle_encEmit {s : State} {pre : List Byte} {v : Val} {i : Nat}
    (h : s.Encoding pre v (min i (size64 v))) : (settleMove .encEmit s).Encoding pre v (min (i + 1) (size64 v)) := by
  by_cases hi : i < size64 v
  · rw [Nat.min_eq_left hi.le] at h
    obtain ⟨t, ht, hnext, -⟩ := encEmit_of_encoding h hi
    rwa [settleMove_of_next (m := .encEmit) ht, Nat.min_eq_left hi]
  · have hle := Nat.le_of_not_lt hi
    rw [Nat.min_eq_right hle] at h
    rwa [settleMove_of_refused (m := .encEmit) (encEmit_of_idle h.idle), Nat.min_eq_right (Nat.le_succ_of_le hle)]

theorem encoding_play_encEmit {s : State} {pre : List Byte} {v : Val} (h : s.Encoding pre v 0) (k : Nat) :
    (play s (List.replicate k (offering .encEmit))).Encoding pre v (min k (size64 v)) := by
  have hplay := play_replicate (P := fun i u => u.Encoding pre v (min i (size64 v))) (fun _ _ ms hu => hu.withAgenda ms)
    (fun _ _ => encoding_settle_encEmit) (i := 0) (by rwa [Nat.zero_min]) k
  rwa [Nat.zero_add] at hplay

/-- Settles O19: the emits that the size of the remaining value counts. -/
theorem encodeEndsWithinTenEmits : Obligations.EncodeEndsWithinTenEmits := by
  intro s hrun
  have hplay := encoding_play_encEmit (encoding_of_run hrun)
  refine ⟨size64 s.encRem, size64_pos _, size64_le_ten _, ?_, fun j hj => ?_⟩
  · have h := hplay (size64 s.encRem)
    rw [Nat.min_self] at h
    exact h.idle
  · have h := hplay j
    rw [Nat.min_eq_left hj.le] at h
    exact h.run hj

/-! ## The whole encode -/

theorem takeMove_encode_enc (w : Width) (v : Val) (x : List Byte) (s : State) :
    takeMove (.command (encode (instrOf .enc w v x))) s = encStart w v s := by
  rw [takeMove, takeCommand_of_decode (decodeEncodeAgree.1 _), exec_instrOf_enc]

/-- `k` bytes of `ENC.w(val)` emitted since `s`, which held the same decoder; HOST took the last of them, with `out_last` when it
is the last of all. -/
structure State.Emitted (s : State) (w : Width) (v : Val) (k : Nat) (t : State) : Prop where
  encoding : t.Encoding [] (widen (widthBits Config.pbits w) v) k
  decPart : t.decPart = s.decPart
  emitted : 0 < k → t.seen.emitted =
    (opEnc Config.pbits w v)[k - 1]?.map fun b => (b, decide (k = opSize Config.pbits w v))

theorem State.Emitted.succ {s t : State} {w : Width} {v : Val} {k : Nat} (h : s.Emitted w v k t)
    (hk : k < opSize Config.pbits w v) : ∃ u, encEmit t = .next u ∧ s.Emitted w v (k + 1) u := by
  obtain ⟨u, hu, henc, hdec, hbyte⟩ := encEmit_of_encoding h.encoding hk
  exact ⟨u, hu, henc, hdec.trans h.decPart, fun _ => hbyte⟩

theorem emitted_zero_of_command {s : State} (hidle : s.encState = .idle) (w : Width) (v : Val) (ms : List Moment) :
    ∃ u, takeMove (.command (encode (instrOf .enc w v []))) (s.withAgenda ms) = .next u ∧ s.Emitted w v 0 u :=
  ⟨_, (takeMove_encode_enc w v [] _).trans (encStart_of_idle (s := s.withAgenda ms) hidle w v),
    encoding_loadEncoder _ _, rfl, fun h => absurd h (Nat.lt_irrefl 0)⟩

/-- From IDLE the command and up to `SIZE.w(val)` emits are all accepted. -/
theorem core_run_encode {s : State} (hidle : s.encState = .idle) (w : Width) (v : Val) {k : Nat}
    (hk : k ≤ opSize Config.pbits w v) (rest : List Moment) :
    ∃ t, core.run (k + 1) (s.withAgenda (presenting (encode (instrOf .enc w v [])) ::
        (List.replicate k (offering .encEmit) ++ rest))) = .next t ∧ s.Emitted w v k t ∧ t.agenda = rest := by
  obtain ⟨u, hu, hzero⟩ := emitted_zero_of_command hidle w v (List.replicate k (offering .encEmit) ++ rest)
  obtain ⟨t, ht, hrest, hrun⟩ := core_run_replicate (P := s.Emitted w v) (m := .encEmit)
    (fun _ _ ms h => ⟨h.encoding.withAgenda ms, h.decPart, h.emitted⟩) (fun _ _ hi h => h.succ hi)
    ((Nat.zero_add k).trans_le hk) hzero (takeMove_agenda hu)
  rw [Nat.zero_add] at ht
  exact ⟨t, (core_run_offering k (State.withAgenda_agenda s _) hu).trans (hrun 0), ht, hrest⟩

/-- Settles O20: `core_run_encode` for all the bytes, and for fewer. -/
theorem encoderRealisesEncode : Obligations.EncoderRealisesEncode := by
  refine fun s w v rest hidle => ⟨?_, fun k hk => ?_⟩
  · obtain ⟨t, hrun, ⟨henc, hdec, hemitted⟩, hrest⟩ := core_run_encode hidle w v le_rfl rest
    refine ⟨t, hrun, ?_, henc.idle, henc.rem.trans (ushiftRight_size64 _), ?_, hdec, hrest⟩
    · rw [henc.out, List.nil_append]
      exact List.take_of_length_le (length_enc64 _).le
    · rw [hemitted (opSize_pos _ w v), List.getLast?_eq_getElem?, length_opEnc, decide_eq_true rfl]
  · obtain ⟨t, hrun, ⟨henc, -, hemitted⟩, -⟩ := core_run_encode hidle w v hk.le rest
    refine ⟨t, hrun, henc.run hk, henc.out, fun hpos => ?_⟩
    have hbyte := getElem?_enc64 (v := widen (widthBits Config.pbits w) v) ((Nat.sub_le k 1).trans_lt hk)
    exact ⟨_, by rw [hemitted hpos, opEnc, hbyte, decide_eq_false hk.ne, Option.map_some]⟩

/-! ## An unfinished encode -/

/-- `EncInv` in RUN (R23 item 1): some bytes of an encoding, not all. -/
theorem encInv_of_run {s : State} (hrun : s.encState = .run) :
    EncInv s ↔ ∃ v, s.Encoding [] v s.out.length ∧ s.out.length < size64 v := by
  rw [EncInv, hrun]
  refine exists_congr fun v => ⟨fun ⟨hrem, hout, hlt⟩ => ⟨⟨?_, hrem, hout⟩, hlt⟩, fun ⟨henc, hlt⟩ => ?_⟩
  · rw [hrun, if_pos hlt]
  · exact ⟨henc.rem, henc.out, hlt⟩

/-- Every byte but the last of an encoding has bit 7 set. -/
theorem continues_of_mem_take_enc64 {v : Val} {i : Nat} (hi : i < size64 v) {b : Byte} (hb : b ∈ (enc64 v).take i) :
    continues b = true := by
  obtain ⟨j, hj, rfl⟩ := List.mem_take_iff_getElem.mp hb
  rw [continues_enc64 (List.getElem?_eq_getElem (Nat.lt_min.mp hj).2), decide_eq_true_iff]
  omega

/-- The last byte of an encoding has not. -/
theorem exists_mem_enc64_not_continues (v : Val) : ∃ b ∈ enc64 v, continues b = false := by
  have hpos := size64_pos v
  have hbyte := getElem?_enc64 (v := v) (i := size64 v - 1) (by omega)
  refine ⟨_, List.mem_of_getElem? hbyte, ?_⟩
  rw [continues_enc64 hbyte, decide_eq_false_iff_not]
  omega

/-- Settles O54: in RUN the output lacks the last byte of the encoding, the only one whose bit 7 is clear. -/
theorem partialOutputIsNoEncoding : Obligations.PartialOutputIsNoEncoding := by
  intro s hinv hrun
  obtain ⟨v, henc, hlt⟩ := (encInv_of_run hrun).mp hinv
  have hout : s.out = (enc64 v).take s.out.length := henc.out
  have hcont : ∀ b ∈ s.out, continues b = true := by
    intro b hb
    rw [hout] at hb
    exact continues_of_mem_take_enc64 hlt hb
  refine ⟨⟨v, ?_, by rwa [length_enc64]⟩, hcont, fun u hu => ?_⟩
  · rw [hout]
    exact List.take_prefix _ _
  · obtain ⟨b, hb, hstop⟩ := exists_mem_enc64_not_continues u
    exact absurd ((hcont b (hu ▸ hb)).symm.trans hstop) (by decide)

end Sys2Proof.Machine
end

section
/-! Proofs about the count (42_decode.md R101 to R105) and about what the decode does not look at: the tenth byte's high bits and
the bytes after the stop (30_encoding.md section 2, 20_memory.md section 2). -/

namespace Sys2Proof.Machine

/-! ## Where the decode stops -/

/-- A decode that a terminator or the cap stops, not the end of the input (R101). -/
def Stopped (input : List Byte) : Prop := Terminated input ∨ 10 ≤ input.length

/-- Event T, or event K or X (R101). -/
theorem closedCount_cases (input : List Byte) :
    (∃ n b, n < 10 ∧ (∀ c ∈ input.take n, continues c = true) ∧ input[n]? = some b ∧ continues b = false ∧
      closedCount input = n + 1) ∨
    (∀ c ∈ input.take 10, continues c = true) ∧ closedCount input = min input.length 10 := by
  cases h : terminatorIndex input with
  | none =>
    have hcont := terminatorIndex_eq_none_iff.mp h
    exact .inr ⟨hcont, closedCount_of_continues hcont⟩
  | some n =>
    obtain ⟨hn, hstop, hpre⟩ := List.findIdx?_eq_some_iff_getElem.mp h
    obtain ⟨hcap, hlen⟩ : n < 10 ∧ n < input.length := by simpa using hn
    refine .inl ⟨n, input[n], hcap, fun c hc => ?_, List.getElem?_eq_getElem hlen, by simpa using hstop, by rw [closedCount, h]⟩
    obtain ⟨j, hj, rfl⟩ := List.mem_take_iff_getElem.mp hc
    simpa using hpre j (Nat.lt_min.mp hj).1

/-- The decode goes on past `n` bytes exactly when there is another byte below the cap and all of them continue. -/
theorem lt_closedCount_iff {input : List Byte} {n : Nat} :
    n < closedCount input ↔ n < 10 ∧ n < input.length ∧ ∀ b ∈ input.take n, continues b = true := by
  obtain ⟨t, b, hcap, hpre, hb, hstop, hcount⟩ | ⟨hcont, hcount⟩ := closedCount_cases input
  · obtain ⟨hlen, rfl⟩ := List.getElem?_eq_some_iff.mp hb
    rw [hcount]
    refine ⟨fun hn => ⟨by omega, by omega, fun c hc => hpre c ((List.take_subset_take_left _ (by omega)) hc)⟩, fun h => ?_⟩
    by_contra hn
    have hmem : input[t] ∈ input.take n := List.mem_take_iff_getElem.mpr ⟨t, by omega, rfl⟩
    exact absurd ((h.2.2 _ hmem).symm.trans hstop) (by decide)
  · rw [hcount]
    refine ⟨fun hn => ⟨by omega, by omega, fun c hc => hcont c ((List.take_subset_take_left _ (by omega)) hc)⟩, fun h => ?_⟩
    omega

theorem closedCount_le_length (input : List Byte) : closedCount input ≤ input.length :=
  le_of_forall_lt fun _ h => (lt_closedCount_iff.mp h).2.1

theorem closedCount_le_ten (input : List Byte) : closedCount input ≤ 10 :=
  le_of_forall_lt fun _ h => (lt_closedCount_iff.mp h).1

/-- The bytes counted all continue, but the last. -/
theorem continues_of_mem_take_closedCount {input : List Byte} {n : Nat} (hn : n < closedCount input) :
    ∀ b ∈ input.take n, continues b = true :=
  (lt_closedCount_iff.mp hn).2.2

theorem closedCount_pos_of_stopped {input : List Byte} (h : Stopped input) : 0 < closedCount input := by
  refine Nat.pos_of_ne_zero fun hzero => ?_
  obtain rfl := closedCount_eq_zero_iff.mp hzero
  obtain ⟨t, -, b, hb, -⟩ | hlen := h
  · simp at hb
  · simp at hlen

/-- Event X: neither a terminator nor the cap. -/
theorem of_not_stopped {input : List Byte} (h : ¬ Stopped input) :
    input.length < 10 ∧ (∀ b ∈ input, continues b = true) ∧ closedCount input = input.length := by
  have hlen : input.length < 10 := Nat.lt_of_not_le fun hle => h (.inr hle)
  have hcont : ∀ b ∈ input, continues b = true := by
    intro b hb
    obtain ⟨t, ht, rfl⟩ := List.mem_iff_getElem.mp hb
    by_contra hstop
    exact h (.inl ⟨t, by show t < 10; omega, _, List.getElem?_eq_getElem ht, Bool.eq_false_of_not_eq_true hstop⟩)
  exact ⟨hlen, hcont, closedCount_of_short hlen hcont⟩

theorem not_stopped {input : List Byte} (hlen : input.length < 10) (hcont : ∀ b ∈ input, continues b = true) :
    ¬ Stopped input := by
  rintro (⟨t, -, b, hb, hstop⟩ | hle)
  · exact absurd ((hcont b (List.mem_of_getElem? hb)).symm.trans hstop) (by decide)
  · omega

/-- The byte after `n` continuation bytes stops the decode exactly when it is the last counted and the input did not run out. -/
theorem stopsAfter_iff {input : List Byte} {n : Nat} {b : Byte} (hn : n < closedCount input) (hb : input[n]? = some b) :
    stopsAfter n b = true ↔ n + 1 = closedCount input ∧ Stopped input := by
  obtain ⟨hcap, hlen, hpre⟩ := lt_closedCount_iff.mp hn
  rw [stopsAfter_eq_true_iff]
  constructor
  · rintro (hstop | hten)
    · exact ⟨(closedCount_of_terminator hcap hpre hb hstop).symm, .inl ⟨n, hcap, b, hb, hstop⟩⟩
    · have hle := closedCount_le_ten input
      exact ⟨by omega, .inr (by omega)⟩
  · rintro ⟨hcount, hstopped⟩
    by_contra hgo
    obtain ⟨hstop, hten⟩ := not_or.mp hgo
    have hall : ∀ c ∈ input.take (n + 1), continues c = true := by
      refine forall_continues_take_succ.mpr ⟨hpre, fun c hc => ?_⟩
      obtain rfl : b = c := Option.some.inj (hb.symm.trans hc)
      exact Bool.eq_true_of_not_eq_false hstop
    have hend : input.length ≤ n + 1 := by
      by_contra hleft
      exact absurd (lt_closedCount_iff.mpr ⟨by omega, Nat.lt_of_not_le hleft, hall⟩) (by omega)
    rw [List.take_of_length_le hend] at hall
    exact not_stopped (by omega) hall hstopped

/-! ## What the decode does not look at -/

theorem dec64_snd (input : List Byte) : (dec64 input).2 = closedCount input := by rw [dec64_eq]

theorem dec64_fst (input : List Byte) : (dec64 input).1 = orGroups input (closedCount input) := by rw [dec64_eq]

theorem orGroups_congr {x y : List Byte} {n : Nat} (h : ∀ i, i < n → x[i]? = y[i]?) : orGroups x n = orGroups y n := by
  induction n with
  | zero => rfl
  | succ n ih =>
    rw [orGroups, orGroups, ih fun i hi => h i (by omega), List.getD_eq_getElem?_getD, List.getD_eq_getElem?_getD,
      h n (Nat.lt_succ_self n)]

theorem orGroups_append {input : List Byte} {n : Nat} (hn : n ≤ input.length) (x : List Byte) :
    orGroups (input ++ x) n = orGroups input n :=
  orGroups_congr fun _ hi => List.getElem?_append_left (hi.trans_le hn)

/-- Event K. -/
theorem ten_le_length_of_stopped {input : List Byte} (h : Stopped input)
    (hcont : ∀ b ∈ input.take 10, continues b = true) : 10 ≤ input.length := by
  obtain ⟨t, ht, b, hb, hstop⟩ | hlen := h
  · have hmem : b ∈ input.take 10 := List.mem_of_getElem? ((List.getElem?_take_of_lt ht).trans hb)
    exact absurd ((hcont b hmem).symm.trans hstop) (by decide)
  · exact hlen

theorem closedCount_append {input : List Byte} (h : Stopped input) (x : List Byte) :
    closedCount (input ++ x) = closedCount input := by
  obtain ⟨n, b, hcap, hpre, hb, hstop, hcount⟩ | ⟨hcont, hcount⟩ := closedCount_cases input
  · have hlen := (List.getElem?_eq_some_iff.mp hb).1
    rw [hcount, closedCount_of_terminator hcap (by rwa [List.take_append_of_le_length hlen.le])
      (by rwa [List.getElem?_append_left hlen]) hstop]
  · have hlen := ten_le_length_of_stopped h hcont
    rw [hcount, closedCount_of_continues (by rwa [List.take_append_of_le_length hlen]), List.length_append]
    omega

theorem dec64_append {input : List Byte} (h : Stopped input) (x : List Byte) : dec64 (input ++ x) = dec64 input := by
  rw [dec64_eq, dec64_eq, closedCount_append h, orGroups_append (closedCount_le_length input)]

/-- Settles O26: the count is the same, and the groups counted are. -/
theorem bytesAfterTheStopDoNotCount : Obligations.BytesAfterTheStopDoNotCount := fun _ x h => dec64_append h x

theorem stopped_take_closedCount {input : List Byte} (h : Stopped input) : Stopped (input.take (closedCount input)) := by
  obtain ⟨n, b, hcap, -, hb, hstop, hcount⟩ | ⟨hcont, hcount⟩ := closedCount_cases input
  · rw [hcount]
    exact .inl ⟨n, hcap, b, (List.getElem?_take_of_lt n.lt_succ_self).trans hb, hstop⟩
  · have hlen := ten_le_length_of_stopped h hcont
    refine .inr ?_
    rw [List.length_take]
    omega

/-- The bytes counted alone give the same result. -/
theorem dec64_take_count (input : List Byte) : dec64 (input.take (closedCount input)) = dec64 input := by
  by_cases h : Stopped input
  · rw [← dec64_append (stopped_take_closedCount h) (input.drop (closedCount input)), List.take_append_drop]
  · obtain ⟨-, -, hcount⟩ := of_not_stopped h
    rw [hcount, List.take_length]

/-! ## The tenth byte -/

/-- After nine continuation bytes the tenth is the last counted, whatever it holds. -/
theorem closedCount_of_nine_continues {pre : List Byte} (hlen : pre.length = 9) (hpre : ∀ c ∈ pre, continues c = true)
    (b : Byte) (x : List Byte) : closedCount (pre ++ b :: x) = 10 := by
  have hlt : 9 < closedCount (pre ++ b :: x) := by
    refine lt_closedCount_iff.mpr ⟨by decide, by simp [hlen], ?_⟩
    rwa [← hlen, List.take_left]
  exact le_antisymm (closedCount_le_ten _) hlt

theorem dec64_of_nine_continues {pre : List Byte} (hlen : pre.length = 9) (hpre : ∀ c ∈ pre, continues c = true)
    (b : Byte) (x : List Byte) : dec64 (pre ++ b :: x) = (orGroups pre 9 ||| placeGroup 9 b, 10) := by
  have hb : (pre ++ b :: x)[9]? = some b := by rw [← hlen, List.getElem?_append_right le_rfl, Nat.sub_self]; rfl
  rw [dec64_eq, closedCount_of_nine_continues hlen hpre, ← orGroups_succ_of_getElem? hb, mergeGroup,
    orGroups_append hlen.ge]

/-- The tenth group places its bit 0 only (R103, decision D9). -/
theorem placeGroup_nine (b : Byte) : placeGroup 9 b = if b.getLsbD 0 then BitVec.ofNat 64 (2 ^ 63) else 0 := by
  revert b
  decide

theorem toNat_placeGroup {n : Nat} (hn : n < 9) (b : Byte) : (placeGroup n b).toNat = (groupOf b).toNat * 2 ^ (7 * n) := by
  have hgroup : b.toNat % 128 = (groupOf b).toNat := by simp [groupOf]
  have hlt : (groupOf b).toNat * 2 ^ (7 * n) < 2 ^ 64 := by
    calc (groupOf b).toNat * 2 ^ (7 * n) < 2 ^ 7 * 2 ^ (7 * n) :=
          Nat.mul_lt_mul_of_pos_right (groupOf b).isLt (Nat.two_pow_pos _)
      _ = 2 ^ (7 + 7 * n) := (Nat.pow_add 2 7 (7 * n)).symm
      _ ≤ 2 ^ 64 := Nat.pow_le_pow_right (by decide) (by omega)
  rw [placeGroup_eq_ofNat, hgroup, BitVec.toNat_ofNat, Nat.mod_eq_of_lt hlt]

/-- Settles O25: by `dec64_of_nine_continues` the tenth byte is counted for its placed group alone, which is its bit 0. -/
theorem tenthByteOnlyBitZeroCounts : Obligations.TenthByteOnlyBitZeroCounts := by
  refine ⟨fun n b hn => toNat_placeGroup hn b, placeGroup_nine, fun pre b b' x x' hlen hpre hbit => ?_⟩
  rw [dec64_of_nine_continues hlen hpre, dec64_of_nine_continues hlen hpre, placeGroup_nine, placeGroup_nine, hbit]
  refine ⟨rfl, rfl, ?_⟩
  rw [BitVec.getLsbD_or, getLsbD_orGroups (by decide)]
  cases b'.getLsbD 0 <;> rfl

/-- Settles O24: the count is that of `dec64`, which ten continuation bytes take to the cap. -/
theorem capIsTenAtEveryWidth : Obligations.CapIsTenAtEveryWidth := by
  refine ⟨fun p w input hlen hcont => ?_, fun p w w' input => rfl⟩
  rw [opDec_snd, dec64_snd, closedCount_of_continues hcont, Nat.min_eq_right hlen]

end Sys2Proof.Machine
end

section
/-! Proofs about the detection recipes (60_exceptions.md R147). -/

namespace Sys2Proof.Machine

/-! ## The last byte counted -/

theorem terminated_iff {input : List Byte} : Terminated input ↔
    1 ≤ closedCount input ∧ ∃ b, input[closedCount input - 1]? = some b ∧ continues b = false := by
  constructor
  · intro h
    obtain ⟨n, b, -, -, hb, hstop, hcount⟩ | ⟨hcont, -⟩ := closedCount_cases input
    · rw [hcount]
      exact ⟨Nat.succ_pos n, b, hb, hstop⟩
    · obtain ⟨t, ht, b, hb, hstop⟩ := h
      have hmem : b ∈ input.take 10 := List.mem_of_getElem? ((List.getElem?_take_of_lt ht).trans hb)
      exact absurd ((hcont b hmem).symm.trans hstop) (by decide)
  · rintro ⟨hpos, b, hb, hstop⟩
    have hle := closedCount_le_ten input
    exact ⟨closedCount input - 1, by show _ < 10; omega, b, hb, hstop⟩

/-- Settles O41: the decode stops on the first terminator, and every byte counted is among the first ten. -/
theorem terminatorTestIsRight : Obligations.TerminatorTestIsRight := by
  intro input
  rw [dec64_snd]
  exact terminated_iff

theorem exists_last_byte {input : List Byte} (hpos : 1 ≤ closedCount input) :
    ∃ b, input[closedCount input - 1]? = some b := by
  have hle := closedCount_le_length input
  exact ⟨_, List.getElem?_eq_getElem (by omega)⟩

theorem not_terminated_iff {input : List Byte} : ¬ Terminated input ↔
    closedCount input = 0 ∨ ∃ b, input[closedCount input - 1]? = some b ∧ continues b = true := by
  rw [terminated_iff]
  obtain hzero | hpos := Nat.eq_zero_or_pos (closedCount input)
  · simp [hzero]
  · obtain ⟨b, hb⟩ := exists_last_byte hpos
    simp [hb, hpos, hpos.ne', Nat.succ_le_iff]

/-- Ten leading continuation bytes, on the result (event K). -/
theorem tenContinue_iff {input : List Byte} : (10 ≤ input.length ∧ ∀ b ∈ input.take 10, continues b = true) ↔
    closedCount input = 10 ∧ ∃ b, input[9]? = some b ∧ continues b = true := by
  constructor
  · rintro ⟨hlen, hcont⟩
    refine ⟨by rw [closedCount_of_continues hcont, Nat.min_eq_right hlen], _, List.getElem?_eq_getElem (by omega), ?_⟩
    exact hcont _ (List.mem_take_iff_getElem.mpr ⟨9, by omega, rfl⟩)
  · rintro ⟨hcount, b, hb, hgo⟩
    obtain ⟨-, hlen, hpre⟩ := lt_closedCount_iff.mp (hcount ▸ (by decide : 9 < 10) : 9 < closedCount input)
    refine ⟨hlen, forall_continues_take_succ.mpr ⟨hpre, fun c hc => ?_⟩⟩
    obtain rfl : b = c := Option.some.inj (hb.symm.trans hc)
    exact hgo

/-! ## The value in exact arithmetic -/

theorem exactSum_lt (input : List Byte) (n : Nat) : exactSum input n < 2 ^ (7 * n) := by
  induction n with
  | zero => exact Nat.one_pos
  | succ n ih =>
    have hgroup : (groupOf (input.getD n 0)).toNat + 1 ≤ 2 ^ 7 := (groupOf (input.getD n 0)).isLt
    calc exactSum input n + (groupOf (input.getD n 0)).toNat * 2 ^ (7 * n)
        < 2 ^ (7 * n) + (groupOf (input.getD n 0)).toNat * 2 ^ (7 * n) := Nat.add_lt_add_right ih _
      _ = ((groupOf (input.getD n 0)).toNat + 1) * 2 ^ (7 * n) := by ring
      _ ≤ 2 ^ 7 * 2 ^ (7 * n) := Nat.mul_le_mul_right _ hgroup
      _ = 2 ^ (7 * (n + 1)) := by rw [← Nat.pow_add, Nat.mul_succ, Nat.add_comm]

/-- The accumulator is the exact sum cut to 64 bits (R103, decision D9): the groups share no bit, so merging adds. -/
theorem orGroups_eq_ofNat_exactSum (input : List Byte) (n : Nat) : orGroups input n = BitVec.ofNat 64 (exactSum input n) := by
  induction n with
  | zero => rfl
  | succ n ih =>
    have hgroup : (input.getD n 0).toNat % 128 = (groupOf (input.getD n 0)).toNat := by simp [groupOf]
    rw [orGroups, ← BitVec.add_eq_or_of_and_eq_zero _ _ (orGroups_and_placeGroup input n _), ih, placeGroup_eq_ofNat, hgroup,
      ← BitVec.ofNat_add, exactSum, Config.groupBits_eq]

theorem toNat_orGroups (input : List Byte) (n : Nat) : (orGroups input n).toNat = exactSum input n % 2 ^ 64 := by
  rw [orGroups_eq_ofNat_exactSum, BitVec.toNat_ofNat]

theorem toNat_orGroups_lt (input : List Byte) (n : Nat) : (orGroups input n).toNat < 2 ^ (7 * n) := by
  rw [toNat_orGroups]
  exact (Nat.mod_le _ _).trans_lt (exactSum_lt input n)

/-- Bits 6 to 1 of the tenth group, which have no place in 64 bits. -/
theorem tenth_bits_iff {b : Byte} : b.extractLsb' 1 6 ≠ 0 ↔ 2 ≤ (groupOf b).toNat := by
  revert b
  decide

/-- The exact sum is past 64 bits exactly when the tenth group has a bit above its bit 0. -/
theorem exactSum_ten_lt_iff (input : List Byte) :
    exactSum input 10 < 2 ^ 64 ↔ (groupOf (input.getD 9 0)).toNat < 2 := by
  have hnine : exactSum input 9 < 2 ^ 63 := exactSum_lt input 9
  have hsum : exactSum input 10 = exactSum input 9 + (groupOf (input.getD 9 0)).toNat * 2 ^ 63 := rfl
  omega

theorem exactSum_lt_iff_of_count {input : List Byte} {n : Nat} (hn : n ≤ 10) (hlen : n ≤ input.length) :
    exactSum input n < 2 ^ 64 ↔ ¬ (n = 10 ∧ ∃ b, input[9]? = some b ∧ b.extractLsb' 1 6 ≠ 0) := by
  obtain hlt | rfl := Nat.lt_or_eq_of_le hn
  · have hfits : exactSum input n < 2 ^ 64 :=
      (exactSum_lt input n).trans_le (Nat.pow_le_pow_right (by decide) (by omega))
    exact iff_of_true hfits fun h => absurd h.1 hlt.ne
  · have hb : input[9]? = some (input.getD 9 0) := by
      rw [List.getD_eq_getElem?_getD, List.getElem?_eq_getElem (by omega), Option.getD_some]
    simp only [exactSum_ten_lt_iff, hb, Option.some.injEq, exists_eq_left', true_and, tenth_bits_iff, Nat.not_le]

theorem toNat_orGroups_ne_exactSum_iff {input : List Byte} {n : Nat} (hn : n ≤ 10) (hlen : n ≤ input.length) :
    (orGroups input n).toNat ≠ exactSum input n ↔ n = 10 ∧ ∃ b, input[9]? = some b ∧ b.extractLsb' 1 6 ≠ 0 := by
  rw [toNat_orGroups, ne_eq, Nat.mod_eq_iff_lt (by decide), exactSum_lt_iff_of_count hn hlen, not_not]

/-! ## A value too wide -/

theorem narrow_ne_self_iff {bits : Nat} (h : bits ≤ 64) {v : Val} :
    narrow bits v ≠ v ↔ ∃ j, bits ≤ j ∧ v.getLsbD j = true := by
  rw [ne_eq, narrow_eq_self_iff h, Nat.not_lt]
  constructor
  · intro hle
    exact Nat.exists_ge_and_testBit_of_ge_two_pow hle
  · rintro ⟨j, hj, hbit⟩
    exact (Nat.pow_le_pow_right (by decide) hj).trans (Nat.ge_two_pow_of_testBit hbit)

/-- Settles O43: the first two recipes read the last byte counted, the third the exact sum, the fourth the bits narrowing
drops. -/
theorem recipesAreRight : Obligations.RecipesAreRight := by
  intro input
  rw [dec64_snd, dec64_fst]
  refine ⟨not_terminated_iff, tenContinue_iff,
    toNat_orGroups_ne_exactSum_iff (closedCount_le_ten input) (closedCount_le_length input), fun p w _ hp => ?_⟩
  rw [opDec_fst, dec64_fst]
  exact narrow_ne_self_iff (widthBits_le hp w)

/-! ## Canonical inputs -/

theorem exactSum_div_mod {input : List Byte} {n i : Nat} (hi : i < n) :
    exactSum input n / 2 ^ (7 * i) % 128 = (groupOf (input.getD i 0)).toNat := by
  induction n with
  | zero => exact absurd hi (Nat.not_lt_zero i)
  | succ n ih =>
    have hsum : exactSum input (n + 1) = exactSum input n + (groupOf (input.getD n 0)).toNat * 2 ^ (7 * n) := rfl
    rw [hsum]
    obtain hlt | rfl := Nat.lt_or_eq_of_le (Nat.le_of_lt_succ hi)
    · obtain ⟨k, rfl⟩ := Nat.exists_eq_add_of_lt hlt
      have hpow : (groupOf (input.getD (i + k + 1) 0)).toNat * 2 ^ (7 * (i + k + 1)) =
          128 * ((groupOf (input.getD (i + k + 1) 0)).toNat * 2 ^ (7 * k)) * 2 ^ (7 * i) := by ring
      rw [hpow, Nat.add_mul_div_right _ _ (Nat.two_pow_pos _), Nat.add_mul_mod_self_left, ih hlt]
    · rw [Nat.add_mul_div_right _ _ (Nat.two_pow_pos _), Nat.div_eq_of_lt (exactSum_lt input i), Nat.zero_add,
        Nat.mod_eq_of_lt (groupOf (input.getD i 0)).isLt]

/-- Group `i` of the value is the group of byte `i`, where no bit of the value is lost. -/
theorem groupAt_orGroups {input : List Byte} {n i : Nat} (hi : i < n) (hfits : exactSum input n < 2 ^ 64) :
    groupAt (orGroups input n) i = groupOf (input.getD i 0) :=
  BitVec.eq_of_toNat_eq (by rw [toNat_groupAt, toNat_orGroups, Nat.mod_eq_of_lt hfits, exactSum_div_mod hi])

/-- `n` bytes whose last group is not zero, or the first byte alone, spell a value of size `n`. -/
theorem size64_orGroups {input : List Byte} {n : Nat} {b : Byte} (hpos : 1 ≤ n) (hb : input[n - 1]? = some b)
    (hlast : n = 1 ∨ groupOf b ≠ 0) (hfits : exactSum input n < 2 ^ 64) : size64 (orGroups input n) = n := by
  refine le_antisymm ((size64_le_iff hpos).mpr (toNat_orGroups_lt input n)) ?_
  obtain ⟨k, rfl⟩ := Nat.exists_eq_add_of_le' hpos
  obtain hzero | hgroup := hlast
  · exact hzero.le.trans (size64_pos _)
  · rw [Nat.add_sub_cancel] at hb
    have hone : 1 ≤ (groupOf b).toNat := Nat.pos_of_ne_zero fun h => hgroup (BitVec.eq_of_toNat_eq h)
    have hsum : exactSum input (k + 1) = exactSum input k + (groupOf b).toNat * 2 ^ (7 * k) := by
      rw [exactSum, List.getD_eq_getElem?_getD, hb, Option.getD_some]
    have hlow : 2 ^ (7 * k) ≤ (orGroups input (k + 1)).toNat := by
      rw [toNat_orGroups, Nat.mod_eq_of_lt hfits, hsum]
      exact (Nat.le_mul_of_pos_left _ hone).trans (Nat.le_add_left _ _)
    obtain rfl | hk := Nat.eq_zero_or_pos k
    · exact size64_pos _
    · exact Nat.succ_le_of_lt (Nat.lt_of_not_le fun hle => absurd ((size64_le_iff hk).mp hle) hlow.not_gt)

/-- Canonical bytes, all continuing but the last, no bit lost and no zero group at the end, are the encoding of their value. -/
theorem take_eq_enc64_orGroups {input : List Byte} {n : Nat} {b : Byte} (hpos : 1 ≤ n) (hb : input[n - 1]? = some b)
    (hpre : ∀ c ∈ input.take (n - 1), continues c = true) (hstop : continues b = false)
    (hlast : n = 1 ∨ groupOf b ≠ 0) (hfits : exactSum input n < 2 ^ 64) : input.take n = enc64 (orGroups input n) := by
  have hsize := size64_orGroups hpos hb hlast hfits
  have hlen := (List.getElem?_eq_some_iff.mp hb).1
  refine List.ext_getElem? fun i => ?_
  obtain hi | hi := Nat.lt_or_ge i n
  · have hc : input[i]? = some (input.getD i 0) := by
      rw [List.getD_eq_getElem?_getD, List.getElem?_eq_getElem (by omega), Option.getD_some]
    have hbit : continues (input.getD i 0) = decide (i + 1 < n) := by
      obtain hmore | hend : i < n - 1 ∨ i = n - 1 := by omega
      · rw [hpre _ (List.mem_of_getElem? ((List.getElem?_take_of_lt hmore).trans hc)), decide_eq_true (by omega)]
      · rw [hend] at hc ⊢
        rw [← Option.some.inj (hb.symm.trans hc), hstop, decide_eq_false (by omega)]
    rw [List.getElem?_take_of_lt hi, hc, eq_comm, getElem?_enc64_eq_some, hsize, groupAt_orGroups hi hfits, ← hbit,
      byteOf_continues_groupOf]
    exact ⟨hi, rfl⟩
  · rw [List.getElem?_eq_none ((List.length_take_le _ _).trans hi), List.getElem?_eq_none (by rwa [length_enc64, hsize])]

/-- The last byte of an encoding passes the tests of R147: a terminator, no zero group unless it is the only byte, and in tenth
place no bit above the value's. -/
theorem canonicalTest_enc64 {input : List Byte} {v : Val} (h : input.take (size64 v) = enc64 v) :
    canonicalTest input (size64 v) := by
  have hpos := size64_pos v
  have hlast : (enc64 v)[size64 v - 1]? = some (byteOf false (groupAt v (size64 v - 1))) := by
    rw [getElem?_enc64_eq_some, decide_eq_false (by omega)]
    exact ⟨by omega, rfl⟩
  have hb : input[size64 v - 1]? = some (byteOf false (groupAt v (size64 v - 1))) := by
    rw [← hlast, ← h, List.getElem?_take_of_lt (by omega)]
  refine ⟨hpos, _, hb, continues_byteOf _ _, ?_, ?_⟩
  · rw [or_iff_not_imp_left, groupOf_byteOf]
    intro hone hzero
    refine getLast?_enc64_ne_zero (v := v) (by omega) (by rw [List.getLast?_eq_getElem?, length_enc64, hlast]) ?_
    rw [hzero]
    decide
  · rw [tenth_bits_iff, groupOf_byteOf, toNat_groupAt]
    rintro ⟨hten, hlost⟩
    rw [hten] at hlost
    have hv := v.isLt
    simp only [Config.capGroups_eq] at hlost
    omega

/-- Settles O42: what the recipe asks for makes the bytes the encoding of their value, and the last byte of an encoding has it. -/
theorem canonicalTestIsRight : Obligations.CanonicalTestIsRight := by
  intro input
  rw [dec64_snd, dec64_fst]
  have hle := closedCount_le_length input
  constructor
  · rintro ⟨hpos, b, hb, hstop, hlast, hkept⟩
    refine take_eq_enc64_orGroups hpos hb (continues_of_mem_take_closedCount (by omega)) hstop hlast ?_
    rw [exactSum_lt_iff_of_count (closedCount_le_ten input) hle]
    rintro ⟨hten, c, hc, hlost⟩
    rw [hten] at hb
    obtain rfl : b = c := Option.some.inj (hb.symm.trans hc)
    exact hkept ⟨hten, hlost⟩
  · intro h
    have hsize : closedCount input = size64 (orGroups input (closedCount input)) := by
      rw [← length_enc64, ← h, List.length_take, Nat.min_eq_left hle]
    generalize orGroups input (closedCount input) = v at h hsize
    rw [hsize] at h ⊢
    exact canonicalTest_enc64 h

end Sys2Proof.Machine
end

section
/-! Proofs about a whole decode at the step level (42_decode.md R112 to R119). -/

namespace Sys2Proof.Machine

/-! ## The decoder after `n` bytes -/

/-- The decoder, started at width `w` on `x`, has consumed `n` bytes of it: it is in DONE when these are all the bytes counted and
a terminator or the cap stopped the decode, and otherwise in RUN. -/
structure State.Decoding (s : State) (w : Width) (x : List Byte) (n : Nat) : Prop where
  width : s.decW = w
  input : s.inp = x
  count : s.decCnt.val = n
  acc : s.decAcc = orGroups x n
  le : n ≤ closedCount x
  phase : s.decState = .run ∧ ¬ (n = closedCount x ∧ Stopped x) ∨ s.decState = .done ∧ n = closedCount x ∧ Stopped x

/-- The decoder is in DONE with the result of `x` at width `w`. -/
structure State.Decoded (s : State) (w : Width) (x : List Byte) : Prop where
  done : s.decState = .done
  width : s.decW = w
  acc : s.decAcc = orGroups x (closedCount x)
  count : s.decCnt.val = closedCount x

section
variable {s : State} {w : Width} {x : List Byte} {n : Nat}

theorem State.Decoding.withAgenda (h : s.Decoding w x n) (ms : List Moment) : (s.withAgenda ms).Decoding w x n :=
  ⟨h.width, h.input, h.count, h.acc, h.le, h.phase⟩

theorem State.Decoding.run (h : s.Decoding w x n) (hn : n < closedCount x) : s.decState = .run := by
  obtain ⟨hrun, -⟩ | ⟨-, hcount, -⟩ := h.phase
  · exact hrun
  · exact absurd hcount hn.ne

theorem State.Decoding.run_of_not_stopped (h : s.Decoding w x n) (hx : ¬ Stopped x) : s.decState = .run := by
  obtain ⟨hrun, -⟩ | ⟨-, -, hstopped⟩ := h.phase
  · exact hrun
  · exact absurd hstopped hx

theorem State.Decoding.decoded (h : s.Decoding w x (closedCount x)) (hx : Stopped x) : s.Decoded w x := by
  obtain ⟨-, hgo⟩ | ⟨hdone, -, -⟩ := h.phase
  · exact absurd ⟨rfl, hx⟩ hgo
  · exact ⟨hdone, h.width, h.acc, h.count⟩

theorem decoding_loadDecoder (s : State) (w : Width) (x : List Byte) : (s.loadDecoder w x).Decoding w x 0 :=
  ⟨rfl, rfl, rfl, rfl, Nat.zero_le _, .inl ⟨rfl, fun h => absurd h.1 (closedCount_pos_of_stopped h.2).ne⟩⟩

/-- In RUN the invariant of R23 says how far the decode is. -/
theorem decoding_of_run (hrun : s.decState = .run) (hinv : DecInv s) : s.Decoding s.decW s.inp s.decCnt.val := by
  obtain ⟨hcap, hlen, hcont, hacc⟩ := (decInv_of_run hrun).mp hinv
  obtain hleft | hend := Nat.lt_or_eq_of_le hlen
  · have hlt := lt_closedCount_iff.mpr ⟨hcap, hleft, hcont⟩
    exact ⟨rfl, rfl, rfl, hacc, hlt.le, .inl ⟨hrun, fun h => absurd h.1 hlt.ne⟩⟩
  · rw [hend, List.take_length] at hcont
    rw [hend] at hcap
    exact ⟨rfl, rfl, rfl, hacc, by rw [hend, closedCount_of_short hcap hcont],
      .inl ⟨hrun, fun h => not_stopped hcap hcont h.2⟩⟩

/-- The invariant of R23 in DONE. -/
theorem State.Decoded.decInv (h : s.Decoded w x) (hx : s.inp = x) : DecInv s := by
  rw [DecInv, h.done, h.acc, h.count, hx]
  exact (dec64_eq x).symm

theorem State.Decoding.decInv (h : s.Decoding w x n) : DecInv s := by
  obtain ⟨hrun, hgo⟩ | ⟨hdone, rfl, -⟩ := h.phase
  · rw [decInv_of_run hrun, h.count, h.input]
    obtain hlt | heq := Nat.lt_or_eq_of_le h.le
    · obtain ⟨hcap, hlen, hcont⟩ := lt_closedCount_iff.mp hlt
      exact ⟨hcap, hlen.le, hcont, h.acc⟩
    · obtain ⟨hlen, hcont, hcount⟩ := of_not_stopped fun hx => hgo ⟨heq, hx⟩
      rw [heq, hcount] at h ⊢
      exact ⟨hlen, le_rfl, fun b hb => hcont b (List.mem_of_mem_take hb), h.acc⟩
  · exact State.Decoded.decInv ⟨hdone, h.width, h.acc, h.count⟩ h.input

/-! ## Bytes -/

/-- Every byte counted is accepted (R113, R118). -/
theorem decByte_of_decoding (h : s.Decoding w x n) (hn : n < closedCount x) :
    ∃ t, decByte s = .next t ∧ t.Decoding w x (n + 1) ∧ t.encPart = s.encPart := by
  obtain ⟨hcap, hlen, -⟩ := lt_closedCount_iff.mp hn
  have hb : x[n]? = some x[n] := List.getElem?_eq_getElem hlen
  refine ⟨_, decByte_of_run (b := x[n]) (h.run hn) (by rw [h.input, h.count, hb]) (by rwa [h.count]),
    ⟨h.width, h.input, congrArg (· + 1) h.count, ?_, hn, ?_⟩, rfl⟩
  · rw [State.consume_decAcc, h.acc, h.count, orGroups_succ_of_getElem? hb]
  · rw [State.consume_decState, phaseAfter, h.count]
    split_ifs with hstop
    · exact .inr ⟨rfl, (stopsAfter_iff hn hb).mp hstop⟩
    · exact .inl ⟨rfl, mt (stopsAfter_iff hn hb).mpr hstop⟩

/-- After the bytes counted no byte is accepted. -/
theorem settleMove_decByte_of_all_consumed (h : s.Decoding w x (closedCount x)) : settleMove .decByte s = s := by
  by_cases hx : Stopped x
  · exact settleMove_of_refused (m := .decByte) (decByte_of_not_run (.inr (h.decoded hx).done))
  · obtain ⟨-, -, hcount⟩ := of_not_stopped hx
    have hnone : s.inp[s.decCnt.val]? = none := by rw [h.input, h.count, hcount, List.getElem?_length]
    exact settleMove_of_refused (m := .decByte) (decByte_of_no_byte (h.run_of_not_stopped hx) hnone)

/-- However many bytes are offered, the decoder consumes those it counts. -/
theorem decoding_settle_decByte (h : s.Decoding w x (min n (closedCount x))) :
    (settleMove .decByte s).Decoding w x (min (n + 1) (closedCount x)) := by
  obtain hn | hn := Nat.lt_or_ge n (closedCount x)
  · rw [Nat.min_eq_left hn.le] at h
    obtain ⟨t, ht, hnext, -⟩ := decByte_of_decoding h hn
    rwa [settleMove_of_next (m := .decByte) ht, Nat.min_eq_left hn]
  · rw [Nat.min_eq_right hn] at h
    rwa [settleMove_decByte_of_all_consumed h, Nat.min_eq_right (Nat.le_succ_of_le hn)]

theorem decoding_play_decByte (h : s.Decoding w x n) (k : Nat) :
    (play s (List.replicate k (offering .decByte))).Decoding w x (min (n + k) (closedCount x)) :=
  play_replicate (P := fun i u => u.Decoding w x (min i (closedCount x))) (fun _ _ ms hu => hu.withAgenda ms)
    (fun _ _ => decoding_settle_decByte) (by rwa [Nat.min_eq_left h.le]) k

/-! ## The end mark -/

/-- Where neither a terminator nor the cap stops the decode, the end mark does (R114, decision D8). -/
theorem decEnd_of_decoding (h : s.Decoding w x (closedCount x)) (hx : ¬ Stopped x) :
    decEnd s = .next s.finishDecode ∧ s.finishDecode.Decoded w x := by
  obtain ⟨-, -, hcount⟩ := of_not_stopped hx
  exact ⟨decEnd_of_end (h.run_of_not_stopped hx) (by rw [h.input, h.count, hcount]), rfl, h.width, h.acc, h.count⟩

end

/-- Settles O38: the bytes left to count, and the end mark where nothing else stops the decode. -/
theorem decodeEndsWithinTenBytes : Obligations.DecodeEndsWithinTenBytes := by
  intro s hrun hinv
  have h := decoding_of_run hrun hinv
  have hle := closedCount_le_ten s.inp
  have hbytes := decoding_play_decByte h (closedCount s.inp - s.decCnt.val)
  rw [Nat.add_sub_cancel' h.le, Nat.min_self] at hbytes
  by_cases hx : Stopped s.inp
  · have hgo : ¬ s.decCnt.val = closedCount s.inp := by
      obtain ⟨-, hgo⟩ | ⟨hdone, -⟩ := h.phase
      · exact fun hcount => hgo ⟨hcount, hx⟩
      · exact absurd (hrun.symm.trans hdone) (by decide)
    have hlt := Nat.lt_of_le_of_ne h.le hgo
    refine ⟨closedCount s.inp - s.decCnt.val, 0, by omega, by omega, by omega, by omega, ?_⟩
    rw [List.replicate_zero, List.append_nil]
    exact (hbytes.decoded hx).done
  · obtain ⟨hlen, -, hcount⟩ := of_not_stopped hx
    obtain ⟨hend, hdecoded⟩ := decEnd_of_decoding hbytes hx
    refine ⟨closedCount s.inp - s.decCnt.val, 1, by omega, le_rfl, by omega, by omega, ?_⟩
    rw [play_append, List.replicate_one, play_offering_cons, settleMove_of_next (m := .decEnd) hend]
    exact hdecoded.done

/-- Settles O39: in RUN the count is at most the length of the input, and a byte is left exactly when it is less. -/
theorem byteOrEndButNotBoth : Obligations.ByteOrEndButNotBoth := by
  intro s hrun hinv
  obtain ⟨hcap, hlen, -, -⟩ := (decInv_of_run hrun).mp hinv
  have hbusy : s.decBusy = true := beq_iff_eq.mpr hrun
  obtain hleft | hend := Nat.lt_or_eq_of_le hlen
  · refine .inl ⟨?_, ?_, ⟨_, decByte_of_run hrun (List.getElem?_eq_getElem hleft) hcap⟩, decEnd_of_byte_left hrun hleft.ne⟩
    · rw [State.inValid, hbusy, decide_eq_true hleft, Bool.and_true]
    · rw [State.inEnd, decide_eq_false hleft.ne, Bool.and_false]
  · have hnone : s.inByte? = none := List.getElem?_eq_none hend.ge
    refine .inr ⟨?_, ?_, decByte_of_no_byte hrun hnone, _, decEnd_of_end hrun hend⟩
    · rw [State.inValid, decide_eq_false hend.ge.not_gt, Bool.and_false]
    · rw [State.inEnd, hbusy, decide_eq_true hend, Bool.and_true]

/-! ## The count -/

theorem takeMove_encode_dec (w : Width) (v : Val) (x : List Byte) (s : State) :
    takeMove (.command (encode (instrOf .dec w v x))) s = decStart w x s := by
  rw [takeMove, takeCommand_of_decode (decodeEncodeAgree.1 _)]
  cases w <;> rfl

theorem decoding_settle_command {s : State} (h : s.decState ≠ .run) (w : Width) (v : Val) (x : List Byte) :
    (settleMove (.command (encode (instrOf .dec w v x))) s).Decoding w x 0 := by
  rw [settleMove_of_next ((takeMove_encode_dec w v x s).trans (decStart_next.mpr ⟨h, rfl⟩))]
  exact decoding_loadDecoder s w x

/-- An over-long input counts more bytes than its value needs (glossary): its last group is zero. -/
theorem size64_lt_closedCount_of_overLong {x : List Byte} (h : OverLong x) : size64 (orGroups x (closedCount x)) < closedCount x := by
  obtain ⟨t, hpos, hcap, hpre, hb⟩ := h
  have hzero : orGroups x (t + 1) = orGroups x t := by
    rw [← orGroups_succ_of_getElem? hb, mergeGroup, placeGroup_eq_ofNat]
    simp
  rw [closedCount_of_terminator hcap hpre hb (by decide), hzero]
  exact Nat.lt_succ_of_le ((size64_le_iff hpos).mpr (toNat_orGroups_lt x t))

/-- The bytes counted all continue but the last, which is a terminator, the tenth byte or the last of the input. -/
theorem last_byte_cases (x : List Byte) :
    (∃ b, x[closedCount x - 1]? = some b ∧ continues b = false) ∨ closedCount x = 10 ∨ closedCount x = x.length := by
  obtain ⟨n, b, -, -, hb, hstop, hcount⟩ | ⟨-, hcount⟩ := closedCount_cases x
  · rw [hcount]
    exact .inl ⟨b, hb, hstop⟩
  · omega

/-- Settles O22: at the step level by `decoding_play_decByte`, at the operation level by the closed count. -/
theorem countIsTheBytesConsumed : Obligations.CountIsTheBytesConsumed := by
  simp only [Obligations.CountIsTheBytesConsumed, dec64_enc64, dec64_snd, dec64_fst, dec64_take_count]
  refine ⟨fun x => ⟨closedCount_le_length x, closedCount_le_ten x, closedCount_eq_zero_iff⟩, fun s w x k hs => ?_,
    fun x => ⟨?_, last_byte_cases x, trivial⟩, fun v => trivial, fun x => size64_lt_closedCount_of_overLong⟩
  · have h := decoding_play_decByte (decoding_settle_command hs w 0 x) k
    rw [Nat.zero_add] at h
    rw [play_presenting_cons]
    exact h.count
  · obtain hzero | hpos := Nat.eq_zero_or_pos (closedCount x)
    · simp [hzero]
    · exact continues_of_mem_take_closedCount (by omega)

/-! ## The whole decode -/

/-- HOST reads the result that the operation level gives (R115). -/
theorem core_run_readResult {s : State} {w : Width} {x : List Byte} {rest : List Moment} (h : s.Decoded w x)
    (ha : s.agenda = offering .readResult :: rest) : ∃ t, core.run 1 s = .next t ∧ t.decState = .done ∧
      t.seen.result = some ((opDec Config.pbits w x).1, BitVec.ofNat 4 (opDec Config.pbits w x).2) ∧
      t.decCnt.val = (opDec Config.pbits w x).2 ∧ t.encPart = s.encPart ∧ t.agenda = rest := by
  have hvalue : s.decValue = (opDec Config.pbits w x).1 := by
    rw [opDec_fst, dec64_fst, State.decValue, h.width, h.acc]
  have hcount : s.decCnt.val = (opDec Config.pbits w x).2 := by rw [opDec_snd, dec64_snd, h.count]
  refine ⟨_, core_run_offering 0 ha (decResult_of_done (s := s.withAgenda rest) h.done), h.done, ?_, hcount, rfl, rfl⟩
  rw [← hvalue, ← hcount]
  rfl

theorem decoding_zero_of_command {s : State} (hs : s.decState ≠ .run) (w : Width) (x : List Byte) (ms : List Moment) :
    ∃ u, takeMove (.command (encode (instrOf .dec w 0 x))) (s.withAgenda ms) = .next u ∧
      u.Decoding w x 0 ∧ u.encPart = s.encPart :=
  ⟨_, (takeMove_encode_dec w 0 x _).trans (decStart_next.mpr ⟨hs, rfl⟩), decoding_loadDecoder _ w x, rfl⟩

/-- From IDLE or DONE the command and the bytes counted are all accepted. -/
theorem core_run_decode {s : State} (hs : s.decState ≠ .run) (w : Width) (x : List Byte) (rest : List Moment) (j : Nat) :
    ∃ t, core.run (closedCount x + j + 1) (s.withAgenda (presenting (encode (instrOf .dec w 0 x)) ::
        (List.replicate (closedCount x) (offering .decByte) ++ rest))) = core.run j t ∧
      t.Decoding w x (closedCount x) ∧ t.encPart = s.encPart ∧ t.agenda = rest := by
  obtain ⟨u, hu, hzero⟩ := decoding_zero_of_command hs w x (List.replicate (closedCount x) (offering .decByte) ++ rest)
  obtain ⟨t, ⟨hdec, henc⟩, hrest, hrun⟩ := core_run_replicate
    (P := fun i t => t.Decoding w x i ∧ t.encPart = s.encPart) (m := .decByte)
    (fun _ _ ms h => ⟨h.1.withAgenda ms, h.2⟩)
    (fun _ _ hi h => (decByte_of_decoding h.1 hi).imp fun _ ht => ⟨ht.1, ht.2.1, ht.2.2.trans h.2⟩)
    (Nat.zero_add _).le hzero (takeMove_agenda hu)
  rw [Nat.zero_add] at hdec
  exact ⟨t, (core_run_offering _ (State.withAgenda_agenda s _) hu).trans (hrun j), hdec, henc, hrest⟩

/-- Settles O40: after the bytes counted the decoder is in DONE, or the end mark brings it there, and the read shows the
result. -/
theorem decoderRealisesDecode : Obligations.DecoderRealisesDecode := by
  intro s w x rest e hphase he
  have hs : s.decState ≠ .run := by obtain h | h := hphase <;> rw [h] <;> decide
  rw [dec64_snd, Nat.add_right_comm _ e 2, Nat.add_assoc _ 2 e, Nat.add_comm 2 e, ← Nat.add_assoc (closedCount x) e 2]
  obtain ⟨t, hrun, hdec, henc, ha⟩ := core_run_decode hs w x
    (List.replicate e (offering .decEnd) ++ offering .readResult :: rest) (e + 1)
  obtain ⟨rfl, hx⟩ | ⟨rfl, hx⟩ := he
  · obtain ⟨u, hread, hdone, hresult, hcount, hkeep, hrest⟩ := core_run_readResult (hdec.decoded hx) ha
    exact ⟨u, hrun.trans hread, hdone, hresult, hcount, hkeep.trans henc, hrest⟩
  · obtain ⟨hend, hdecoded⟩ := decEnd_of_decoding (hdec.withAgenda (offering .readResult :: rest)) hx
    obtain ⟨u, hread, hdone, hresult, hcount, hkeep, hrest⟩ := core_run_readResult hdecoded rfl
    exact ⟨u, hrun.trans ((core_run_offering 1 ha hend).trans hread), hdone, hresult, hcount, hkeep.trans henc, hrest⟩

/-! ## No trace of what came before -/

/-- The decoder's registers and `In`, without the result HOST last read. -/
def State.decRegs (s : State) : DecPart := { s.decPart with result := none }

/-- How far a decode is determines its registers. -/
theorem decRegs_eq_of_decoding {s t : State} {w : Width} {x : List Byte} {n : Nat} (hs : s.Decoding w x n)
    (ht : t.Decoding w x n) : s.decRegs = t.decRegs := by
  have hphase : s.decState = t.decState := by
    obtain ⟨hrun, hgo⟩ | ⟨hdone, hstop⟩ := hs.phase <;> obtain ⟨hrun', hgo'⟩ | ⟨hdone', hstop'⟩ := ht.phase
    · exact hrun.trans hrun'.symm
    · exact absurd hstop' hgo
    · exact absurd hstop hgo'
    · exact hdone.trans hdone'.symm
  have hcount : s.decCnt = t.decCnt := Fin.ext (hs.count.trans ht.count.symm)
  simp only [State.decRegs, State.decPart, hphase, hs.acc, ht.acc, hcount, hs.width, ht.width, hs.input, ht.input]

/-- The end mark does not look at the result HOST last read. -/
theorem decRegs_settleMove_decEnd (s : State) :
    (settleMove .decEnd s).decRegs = { s.decRegs.after .decEnd with result := none } := by
  obtain ⟨encState, encRem, decState, decAcc, decCnt, decW, inp, out, seen, agenda⟩ := s
  cases decState with
  | idle => rfl
  | done => rfl
  | run =>
    simp only [DecPart.after, settleMove, takeMove, decEnd, State.decRegs, State.withDec, State.decPart]
    by_cases hn : decCnt.val = inp.length <;> simp only [hn, if_true, if_false] <;> rfl

theorem decRegs_play_decEnd {s t : State} (h : s.decRegs = t.decRegs) (e : Nat) :
    (play s (List.replicate e (offering .decEnd))).decRegs = (play t (List.replicate e (offering .decEnd))).decRegs := by
  induction e generalizing s t with
  | zero => exact h
  | succ e ih =>
    rw [List.replicate_succ, play_offering_cons, play_offering_cons]
    exact ih (by rw [decRegs_settleMove_decEnd, decRegs_settleMove_decEnd, h])

theorem out_play_encode {s : State} (hidle : s.encState = .idle) (w : Width) (v : Val) (n : Nat) :
    (play s (presenting (encode (instrOf .enc w v [])) :: List.replicate n (offering .encEmit))).out =
      (opEnc Config.pbits w v).take n := by
  rw [play_presenting_cons, settleMove_of_next ((takeMove_encode_enc w v [] s).trans (encStart_of_idle hidle w v)),
    (encoding_play_encEmit (encoding_loadEncoder s _) n).out, List.nil_append, opEnc, ← length_enc64,
    ← List.take_eq_take_min]

/-- Settles O53: the output is the bytes of `ENC.w(val)` there are emits for; the registers after the bytes are those of
`State.Decoding`, and the end mark goes by the registers. -/
theorem resultsDoNotDependOnHistory : Obligations.ResultsDoNotDependOnHistory := by
  refine fun s t w v x n e => ⟨fun hs ht => ?_, fun hs ht => ?_⟩
  · rw [out_play_encode hs, out_play_encode ht]
  · rw [play_presenting_cons, play_presenting_cons, play_append, play_append]
    exact decRegs_play_decEnd (decRegs_eq_of_decoding (decoding_play_decByte (decoding_settle_command hs w v x) n)
      (decoding_play_decByte (decoding_settle_command ht w v x) n)) e

end Sys2Proof.Machine
end

section
/-! Proofs about the invariant of the reachable states (10_state.md R23) and about faults (60_exceptions.md R135). -/

namespace Sys2Proof.Machine

/-! ## The encoder -/

theorem encInv_congr {s t : State} (h : t.encPart = s.encPart) (hs : EncInv s) : EncInv t := by
  rw [EncInv, State.encState_eq_of_encPart_eq h, State.encRem_eq_of_encPart_eq h, State.out_eq_of_encPart_eq h]
  exact hs

/-- The encoder meets the invariant after any number of bytes. -/
theorem State.Encoding.encInv {s : State} {v : Val} {i : Nat} (h : s.Encoding [] v i) (hi : i ≤ size64 v) : EncInv s := by
  have hout : s.out = (enc64 v).take i := h.out
  obtain hlt | rfl := Nat.lt_or_eq_of_le hi
  · have hlen : s.out.length = i := by rw [hout, List.length_take, length_enc64, Nat.min_eq_left hi]
    rw [encInv_of_run (h.run hlt)]
    exact ⟨v, hlen.symm ▸ h, hlen.symm ▸ hlt⟩
  · rw [EncInv, h.idle]
    exact ⟨h.rem.trans (ushiftRight_size64 v), .inr ⟨v, hout.trans (List.take_of_length_le (length_enc64 v).le)⟩⟩

theorem encInv_of_takeMove {m : Move} {s t : State} (hs : EncInv s) (h : takeMove m s = .next t) : EncInv t := by
  obtain hkeep | ⟨-, ⟨w, v, hstart⟩ | ⟨-, hemit⟩⟩ := encPart_of_takeMove h
  · exact encInv_congr hkeep hs
  · obtain ⟨-, rfl⟩ := encStart_next.mp hstart
    exact (encoding_loadEncoder s _).encInv (Nat.zero_le _)
  · obtain ⟨v, henc, hlt⟩ := (encInv_of_run (encEmit_next.mp hemit).1).mp hs
    obtain ⟨u, hu, hnext, -⟩ := encEmit_of_encoding henc hlt
    cases hemit.symm.trans hu
    exact hnext.encInv hlt

/-! ## The decoder -/

theorem decInv_congr {s t : State} (h : t.decPart = s.decPart) (hs : DecInv s) : DecInv t := by
  have hstate : t.decState = s.decState := congrArg DecPart.decState h
  have hacc : t.decAcc = s.decAcc := congrArg DecPart.decAcc h
  have hcnt : t.decCnt = s.decCnt := congrArg DecPart.decCnt h
  have hwidth : t.decW = s.decW := congrArg DecPart.decW h
  have hinp : t.inp = s.inp := congrArg DecPart.inp h
  rw [DecInv, hstate, hacc, hcnt, hwidth, hinp]
  exact hs

/-- An accepted byte in RUN is one of those counted. -/
theorem decInv_of_decByte {s t : State} (hs : DecInv s) (h : decByte s = .next t) : DecInv t := by
  obtain ⟨hrun, b, hb, hcap, -⟩ := decByte_next.mp h
  obtain ⟨-, -, hcont, -⟩ := (decInv_of_run hrun).mp hs
  have hlt : s.decCnt.val < closedCount s.inp :=
    lt_closedCount_iff.mpr ⟨hcap, (List.getElem?_eq_some_iff.mp hb).1, hcont⟩
  obtain ⟨u, hu, hnext, -⟩ := decByte_of_decoding (decoding_of_run hrun hs) hlt
  cases h.symm.trans hu
  exact hnext.decInv

/-- The end mark in RUN finds the whole input consumed, with nothing to stop the decode before. -/
theorem decInv_of_decEnd {s t : State} (hs : DecInv s) (h : decEnd s = .next t) : DecInv t := by
  obtain ⟨hrun, hend, rfl⟩ := decEnd_next.mp h
  obtain ⟨hcap, -, hcont, hacc⟩ := (decInv_of_run hrun).mp hs
  rw [hend, List.take_length] at hcont
  have hcount : s.decCnt.val = closedCount s.inp := by rw [closedCount_of_short (hend ▸ hcap) hcont, hend]
  exact State.Decoded.decInv ⟨rfl, rfl, hcount ▸ hacc, hcount⟩ rfl

theorem decInv_of_takeMove {m : Move} {s t : State} (hs : DecInv s) (h : takeMove m s = .next t) : DecInv t := by
  obtain hkeep | ⟨-, ⟨c, w, -, hstart⟩ | hbyte | hend | hread⟩ := decPart_of_takeMove h
  · exact decInv_congr hkeep hs
  · obtain ⟨-, rfl⟩ := decStart_next.mp hstart
    exact (decoding_loadDecoder s w c.input).decInv
  · exact decInv_of_decByte hs hbyte
  · exact decInv_of_decEnd hs hend
  · obtain ⟨-, rfl⟩ := decResult_next.mp hread
    exact hs

/-! ## The whole machine -/

/-- Settles O46: IDLE with cleared registers on both sides, no output and no input. -/
theorem invariantHoldsAtReset : Obligations.InvariantHoldsAtReset := ⟨⟨rfl, .inl rfl⟩, rfl, rfl, rfl, rfl⟩

/-- Settles O47: each unit's half of the invariant is kept by each unit's steps, and `RESET` establishes it. -/
theorem invariantKeptByEveryStep : Obligations.InvariantKeptByEveryStep := by
  intro s t hs h
  obtain ⟨-, rfl⟩ | ⟨⟨reset, mv⟩, rest, -, hm⟩ := step_next.mp h
  · exact hs
  cases reset with
  | true => cases hm; exact invariantHoldsAtReset
  | false =>
    cases mv with
    | none => cases hm; exact hs
    | some mv =>
      obtain ⟨henc, hdec⟩ : (s.withAgenda rest).Inv := hs
      exact ⟨encInv_of_takeMove henc hm, decInv_of_takeMove hdec hm⟩

/-! ## Faults -/

/-- The one fault is the stuck byte of U11. -/
theorem takeMove_fault {m : Move} {s : State} {f : Fault} (h : takeMove m s = .fault f) :
    s.decState = .run ∧ s.decCnt.val = 10 := by
  cases m with
  | command c =>
    simp only [takeMove] at h
    obtain ⟨-, w, e⟩ | ⟨-, w, e⟩ | ⟨-, w, e⟩ | ⟨r, e⟩ := takeCommand_cases c s <;> rw [e] at h
    · cases h
    · cases hphase : s.encState <;> rw [encStart, hphase] at h <;> cases h
    · cases hphase : s.decState <;> rw [decStart, hphase] at h <;> cases h
    · cases h
  | encEmit =>
    cases hphase : s.encState with
    | idle => cases (encEmit_of_idle hphase).symm.trans h
    | run =>
      obtain ⟨t, ht, -⟩ := encEmit_takes_outByte hphase
      cases ht.symm.trans h
  | decByte =>
    obtain ⟨-, hrun, -, hcap⟩ := decByte_fault.mp h
    have hlt : s.decCnt.val < 11 := s.decCnt.isLt
    simp only [Config.capGroups_eq] at hcap
    exact ⟨hrun, by omega⟩
  | decEnd =>
    cases hphase : s.decState with
    | idle => cases (decEnd_of_not_run (.inl hphase)).symm.trans h
    | done => cases (decEnd_of_not_run (.inr hphase)).symm.trans h
    | run =>
      by_cases hend : s.decCnt.val = s.inp.length
      · cases (decEnd_of_end hphase hend).symm.trans h
      · cases (decEnd_of_byte_left hphase hend).symm.trans h
  | readResult => cases hphase : s.decState <;> rw [takeMove, decResult, hphase] at h <;> cases h
  | readStatus => cases h

theorem step_fault {s : State} {f : Fault} (h : step s = .fault f) : s.decState = .run ∧ s.decCnt.val = 10 := by
  cases ha : s.agenda with
  | nil => cases (step_next.mpr (.inl ⟨ha, rfl⟩)).symm.trans h
  | cons m rest =>
    rw [step_cons ha] at h
    obtain ⟨_ | _, _ | mv⟩ := m
    · cases h
    · exact takeMove_fault (s := s.withAgenda rest) h
    · cases h
    · cases h

/-- Settles O48: `step_fault`, and under the invariant the count in RUN is below 10. -/
theorem noStepFaults : Obligations.NoStepFaults := by
  refine ⟨fun s hs f h => ?_, fun s f => step_fault⟩
  obtain ⟨hrun, hcnt⟩ := step_fault h
  exact absurd ((decInv_of_run hrun).mp hs.2).1 (by omega)

end Sys2Proof.Machine
end
